-- ==== Sys2Proof/Word.lean ====
section
/-! DEFINITION. Word.lean: the widths of the machine's values (`00_scope.md` rules R7, R10).
No arithmetic stands here: what the machine computes is under `Sys2Proof/Machine/`. -/

namespace Sys2Proof

/-- A word: a 32-bit unit of memory and register storage (R7, R10, R13). -/
abbrev Word := BitVec 32

/-- A byte. No instruction sees one (R50, R55); the memory list of the package is held in bytes. -/
abbrev Byte := BitVec 8

/-- The 11-bit address, immediate or jump-target field of Formats A, B and C (R71 to R73). -/
abbrev Field11 := BitVec 11

end Sys2Proof
end

