-- ==== Sys2Proof/Syntax.lean ====
section
/-! DEFINITION. Syntax.lean: registers, the operation tags of the opcode tables, the decoder's
output and the instructions, one constructor per row of `spec/opcode_table.json` (R3, R36, R80). -/

namespace Sys2Proof

/-- The eight general registers (R21). -/
inductive Reg where
  | R0 | R1 | R2 | R3 | R4 | R5 | R6 | R7
  deriving DecidableEq, Repr, Inhabited

/-- The eight registers in the order of their numbers. -/
def Reg.all : List Reg := [.R0, .R1, .R2, .R3, .R4, .R5, .R6, .R7]

/-- Format A operations, register–memory (R71). -/
inductive OpA where
  | cargar | almacenar
  deriving DecidableEq, Repr

/-- Format B operations, register–immediate (R72). -/
inductive OpB where
  | lsl | lsr | asr | cargarValor | rotacionL | rotacionR
  deriving DecidableEq, Repr

/-- An entry of the A/B opcode table: it also says whether the operation is Format A or B (R80). -/
inductive OpAB where
  | a (op : OpA)
  | b (op : OpB)
  deriving DecidableEq, Repr

/-- Format C operations, jumps (R73, R150). -/
inductive OpC where
  | saltar | jZero | jPos | jNeg | jPar | jCarry | jOvf | jNovf
  deriving DecidableEq, Repr

/-- Format D operations, register–register (R74). -/
inductive OpD where
  | or | and | xor | not | sumar | restar | mult | div | copiar | comp | intercambiar | mod
  deriving DecidableEq, Repr

/-- The eight operations of `TAB_AB`, in the order the spec lists them (R80, R82). -/
def OpAB.all : List OpAB :=
  [.a .cargar, .a .almacenar, .b .lsl, .b .lsr, .b .asr, .b .cargarValor, .b .rotacionL,
   .b .rotacionR]

/-- The eight operations of `TAB_C` (R80, R82). -/
def OpC.all : List OpC := [.saltar, .jZero, .jPos, .jNeg, .jPar, .jCarry, .jOvf, .jNovf]

/-- The twelve operations of `TAB_D` (R80, R82). -/
def OpD.all : List OpD :=
  [.or, .and, .xor, .not, .sumar, .restar, .mult, .div, .copiar, .comp, .intercambiar, .mod]

/-- The 29 instructions with their operands (R3, R88). Register operands are registers and 11-bit
fields are 11 bits wide, so within a format no operand can be illegal (R77 to R79, R86). -/
inductive Instr where
  | parar
  | cargar (r : Reg) (addr : Field11)
  | almacenar (r : Reg) (addr : Field11)
  | lsl (r : Reg) (k : Field11)
  | lsr (r : Reg) (k : Field11)
  | asr (r : Reg) (k : Field11)
  | cargarValor (r : Reg) (k : Field11)
  | rotacionL (r : Reg) (k : Field11)
  | rotacionR (r : Reg) (k : Field11)
  | saltar (target : Field11)
  | jZero (target : Field11)
  | jPos (target : Field11)
  | jNeg (target : Field11)
  | jPar (target : Field11)
  | jCarry (target : Field11)
  | jOvf (target : Field11)
  | jNovf (target : Field11)
  | or (r1 r2 : Reg)
  | and (r1 r2 : Reg)
  | xor (r1 r2 : Reg)
  | not (r1 r2 : Reg)
  | sumar (r1 r2 : Reg)
  | restar (r1 r2 : Reg)
  | mult (r1 r2 : Reg)
  | div (r1 r2 : Reg)
  | copiar (r1 r2 : Reg)
  | comp (r1 r2 : Reg)
  | intercambiar (r1 r2 : Reg)
  | mod (r1 r2 : Reg)
  deriving DecidableEq, Repr

/-- The decoder's output, one of six shapes (R36). -/
inductive Decoded where
  | halt
  | unrecognized
  | A (op : OpA) (r : Reg) (addr : Field11)
  | B (op : OpB) (r : Reg) (k : Field11)
  | C (op : OpC) (target : Field11)
  | D (op : OpD) (r1 r2 : Reg)
  deriving DecidableEq, Repr

end Sys2Proof
end

