-- ==== Sys2Proof/Config.lean ====
section
/-! DEFINITION. Config.lean: the parameters a model of this hardware takes (`00_scope.md` rule R8)
and its one free value, the flags after `DIV` and `MOD` (R173). The parameters that stay fixed while
the machine runs are the record `Params`; the values given at a launch (`INIT_REGS`, `INIT_FLAGS`,
`ENTRY`) and at a load (`BASE`) are arguments of `State.launch` and of the loader. -/

namespace Sys2Proof

/-- The five condition flags, each one bit (R27). -/
structure Flags where
  /-- carry -/
  C : Bool
  /-- zero -/
  Z : Bool
  /-- negative -/
  N : Bool
  /-- parity: 1 iff the result is even -/
  P : Bool
  /-- overflow -/
  V : Bool
  deriving DecidableEq, Repr, Inhabited

/-- The opcode assignment `OPC`: three finite tables of (opcode-field value, operation) (R80). -/
structure Opc where
  tabAB : List (BitVec 18 × OpAB)
  tabC : List (BitVec 21 × OpC)
  tabD : List (BitVec 26 × OpD)
  deriving DecidableEq, Repr

/-- `NOT_OPERAND`: which register `NOT` complements (R8, R178). -/
inductive NotOperand where
  | r1 | r2
  deriving DecidableEq, Repr

/-- `ZERO_BASIS`: whether `Z` is computed from the unmasked or the masked result (R8, R174). -/
inductive ZeroBasis where
  | unmasked | masked
  deriving DecidableEq, Repr

/-- The parameters of one machine, fixed while it runs (R8). -/
structure Params where
  /-- `MEM_SIZE`: the number of words of memory -/
  memSize : Nat
  /-- `OPC`: the opcode assignment -/
  opc : Opc
  /-- `NOT_OPERAND` -/
  notOperand : NotOperand
  /-- `ZERO_BASIS` -/
  zeroBasis : ZeroBasis
  deriving DecidableEq, Repr

/-- A whitespace-free piece of an assembler line. -/
abbrev Token := List Char

/-- `JMP_MNEMONIC`: the assembler's spelling of the seven conditional jumps (R8, R88). -/
structure JmpMnemonics where
  jZero : Token
  jPos : Token
  jNeg : Token
  jPar : Token
  jCarry : Token
  jOvf : Token
  jNovf : Token
  deriving DecidableEq, Repr

/-- The free value `DIVMOD_FLAGS` (R8, R173): the five flags that the `n`-th drawing execution
leaves, for operation `op` on operands `a`, `b` with the flags `old` before it. Nothing constrains it,
so a theorem about it holds for every draw, "flags unchanged" included. -/
opaque Config.divModFlags (n : Nat) (op : OpD) (a b : Word) (old : Flags) : Flags

end Sys2Proof
end

