-- ==== Sys2Proof/Decode.lean ====
section
/-! DEFINITION. Decode.lean: the reference opcode assignment, the four-format decoder and the encoder
(`30_encoding.md` rules R70 to R89). The decoder is total on every 32-bit word: a word that is neither
the halt word nor in a table is rejected by name, as `Decoded.unrecognized`. -/

namespace Sys2Proof

/-- The number of a register, as a 3-bit field value (R21, R77). -/
def Reg.toBits : Reg → BitVec 3
  | .R0 => 0 | .R1 => 1 | .R2 => 2 | .R3 => 3 | .R4 => 4 | .R5 => 5 | .R6 => 6 | .R7 => 7

/-- The register a 3-bit field value selects (R77). -/
def Reg.ofBits (b : BitVec 3) : Reg :=
  match b.toNat with
  | 0 => .R0 | 1 => .R1 | 2 => .R2 | 3 => .R3 | 4 => .R4 | 5 => .R5 | 6 => .R6 | _ => .R7

/-- The reference assignment `OPC_REF` (R82). -/
def opcRef : Opc where
  tabAB :=
    [(0x00001, .a .cargar), (0x00002, .a .almacenar), (0x00003, .b .lsl), (0x00004, .b .lsr),
     (0x00005, .b .asr), (0x00006, .b .cargarValor), (0x00007, .b .rotacionL),
     (0x00008, .b .rotacionR)]
  tabC :=
    [(0x000048, .saltar), (0x000049, .jZero), (0x00004A, .jPos), (0x00004B, .jNeg),
     (0x00004C, .jPar), (0x00004D, .jCarry), (0x00004E, .jOvf), (0x00004F, .jNovf)]
  tabD :=
    [(0x0000A00, .or), (0x0000A01, .and), (0x0000A02, .xor), (0x0000A03, .not),
     (0x0000A04, .sumar), (0x0000A05, .restar), (0x0000A06, .mult), (0x0000A07, .div),
     (0x0000A08, .copiar), (0x0000A09, .comp), (0x0000A0A, .intercambiar), (0x0000A0B, .mod)]

/-! ## Fields of a word (R71 to R76) -/

/-- `w[31:14]`, the opcode field of Formats A and B. -/
def fieldOpAB (w : Word) : BitVec 18 := w.extractLsb' 14 18

/-- `w[31:11]`, the opcode field of Format C. -/
def fieldOpC (w : Word) : BitVec 21 := w.extractLsb' 11 21

/-- `w[31:6]`, the opcode field of Format D. -/
def fieldOpD (w : Word) : BitVec 26 := w.extractLsb' 6 26

/-- `w[10:0]`, the address, immediate or target. -/
def fieldLow (w : Word) : Field11 := w.extractLsb' 0 11

/-- `w[13:11]`, the register of Formats A and B. -/
def fieldR (w : Word) : Reg := Reg.ofBits (w.extractLsb' 11 3)

/-- `w[5:3]`, the first register of Format D. -/
def fieldR1 (w : Word) : Reg := Reg.ofBits (w.extractLsb' 3 3)

/-- `w[2:0]`, the second register of Format D. -/
def fieldR2 (w : Word) : Reg := Reg.ofBits (w.extractLsb' 0 3)

/-! ## The decoder -/

/-- The 4-format classifier: halt word first, then the A/B, C and D tables in that order (R83). -/
def classify (opc : Opc) (w : Word) : Decoded :=
  if w = 0#32 then .halt
  else
    match opc.tabAB.lookup (fieldOpAB w) with
    | some (.a op) => .A op (fieldR w) (fieldLow w)
    | some (.b op) => .B op (fieldR w) (fieldLow w)
    | none =>
      match opc.tabC.lookup (fieldOpC w) with
      | some op => .C op (fieldLow w)
      | none =>
        match opc.tabD.lookup (fieldOpD w) with
        | some op => .D op (fieldR1 w) (fieldR2 w)
        | none => .unrecognized

/-- The instruction a Format A result stands for. -/
def OpA.instr (op : OpA) (r : Reg) (addr : Field11) : Instr :=
  match op with
  | .cargar => .cargar r addr
  | .almacenar => .almacenar r addr

/-- The instruction a Format B result stands for. -/
def OpB.instr (op : OpB) (r : Reg) (k : Field11) : Instr :=
  match op with
  | .lsl => .lsl r k
  | .lsr => .lsr r k
  | .asr => .asr r k
  | .cargarValor => .cargarValor r k
  | .rotacionL => .rotacionL r k
  | .rotacionR => .rotacionR r k

/-- The instruction a Format C result stands for. -/
def OpC.instr (op : OpC) (target : Field11) : Instr :=
  match op with
  | .saltar => .saltar target
  | .jZero => .jZero target
  | .jPos => .jPos target
  | .jNeg => .jNeg target
  | .jPar => .jPar target
  | .jCarry => .jCarry target
  | .jOvf => .jOvf target
  | .jNovf => .jNovf target

/-- The instruction a Format D result stands for. -/
def OpD.instr (op : OpD) (r1 r2 : Reg) : Instr :=
  match op with
  | .or => .or r1 r2
  | .and => .and r1 r2
  | .xor => .xor r1 r2
  | .not => .not r1 r2
  | .sumar => .sumar r1 r2
  | .restar => .restar r1 r2
  | .mult => .mult r1 r2
  | .div => .div r1 r2
  | .copiar => .copiar r1 r2
  | .comp => .comp r1 r2
  | .intercambiar => .intercambiar r1 r2
  | .mod => .mod r1 r2

/-- The instruction of a decoder result; an unrecognized word has none (R86). -/
def Decoded.instr? : Decoded → Option Instr
  | .halt => some .parar
  | .unrecognized => none
  | .A op r addr => some (op.instr r addr)
  | .B op r k => some (op.instr r k)
  | .C op target => some (op.instr target)
  | .D op r1 r2 => some (op.instr r1 r2)

/-- The instruction a word encodes under an assignment, none for an unrecognized word (R83). -/
def decode (opc : Opc) (w : Word) : Option Instr := (classify opc w).instr?

/-- The decoder on an opcode-table word under `OPC_REF`: an instruction is one 32-bit word (R70), so
the bits of `w` above `nbits` are dropped and the word is read as a 32-bit number. -/
def decodeTableWord (nbits w : Nat) : Option Instr :=
  decode opcRef (BitVec.ofNat 32 (w % 2 ^ nbits))

/-! ## The encoder -/

/-- The decoder result that stands for an instruction: its operation tag and its fields (R36). -/
def Instr.decoded : Instr → Decoded
  | .parar => .halt
  | .cargar r addr => .A .cargar r addr
  | .almacenar r addr => .A .almacenar r addr
  | .lsl r k => .B .lsl r k
  | .lsr r k => .B .lsr r k
  | .asr r k => .B .asr r k
  | .cargarValor r k => .B .cargarValor r k
  | .rotacionL r k => .B .rotacionL r k
  | .rotacionR r k => .B .rotacionR r k
  | .saltar t => .C .saltar t
  | .jZero t => .C .jZero t
  | .jPos t => .C .jPos t
  | .jNeg t => .C .jNeg t
  | .jPar t => .C .jPar t
  | .jCarry t => .C .jCarry t
  | .jOvf t => .C .jOvf t
  | .jNovf t => .C .jNovf t
  | .or r1 r2 => .D .or r1 r2
  | .and r1 r2 => .D .and r1 r2
  | .xor r1 r2 => .D .xor r1 r2
  | .not r1 r2 => .D .not r1 r2
  | .sumar r1 r2 => .D .sumar r1 r2
  | .restar r1 r2 => .D .restar r1 r2
  | .mult r1 r2 => .D .mult r1 r2
  | .div r1 r2 => .D .div r1 r2
  | .copiar r1 r2 => .D .copiar r1 r2
  | .comp r1 r2 => .D .comp r1 r2
  | .intercambiar r1 r2 => .D .intercambiar r1 r2
  | .mod r1 r2 => .D .mod r1 r2

/-- The first key of an operation in an opcode table. -/
def keyOf {n : Nat} {α : Type} [DecidableEq α] (op : α) : List (BitVec n × α) → Option (BitVec n)
  | [] => none
  | (k, op') :: rest => if op' = op then some k else keyOf op rest

/-- A Format A or B word: `opAB ++ r ++ field` (R71, R72, R76). -/
def packAB (key : BitVec 18) (r : Reg) (field : Field11) : Word := key ++ r.toBits ++ field

/-- A Format C word: `opC ++ target` (R73, R76). -/
def packC (key : BitVec 21) (target : Field11) : Word := key ++ target

/-- A Format D word: `opD ++ r1 ++ r2` (R74, R76). -/
def packD (key : BitVec 26) (r1 r2 : Reg) : Word := key ++ r1.toBits ++ r2.toBits

/-- The word of a decoder result: none if the assignment has no key for its operation (an assignment
that is not legal, R81) or if it is `unrecognized`. -/
def encodeDecoded (opc : Opc) : Decoded → Option Word
  | .halt => some 0#32
  | .unrecognized => none
  | .A op r addr => (keyOf (.a op) opc.tabAB).map fun k => packAB k r addr
  | .B op r k => (keyOf (.b op) opc.tabAB).map fun key => packAB key r k
  | .C op target => (keyOf op opc.tabC).map fun k => packC k target
  | .D op r1 r2 => (keyOf op opc.tabD).map fun k => packD k r1 r2

/-- The word of an instruction under an assignment (R75, R89). -/
def encode (opc : Opc) (i : Instr) : Option Word := encodeDecoded opc i.decoded

end Sys2Proof
end

