-- ==== Sys2Proof/WellFormed.lean ====
section
/-! DEFINITION. WellFormed.lean: which opcode assignments, parameters, spellings and instructions are
legal (R8, R81). An instruction's register numbers and 11-bit fields are legal by their types (R86);
what remains to check is that the assignment in force can encode it. Each check has an ill-formed
term that it refuses in `Sys2Proof/Tests/Slice0.lean`. -/

namespace Sys2Proof

/-- W1 for one table: each operation of `ops` once, and no key twice (R80, R81). -/
def tableOk {n : Nat} {α : Type} [DecidableEq α] (ops : List α) (tab : List (BitVec n × α)) : Bool :=
  decide (tab.map (·.1)).Nodup && ops.all fun op => decide ((tab.map (·.2)).count op = 1)

/-- W1: exactly the 8 A/B, 8 C and 12 D operations, each once (R81). -/
def Opc.W1 (opc : Opc) : Bool :=
  tableOk OpAB.all opc.tabAB && tableOk OpC.all opc.tabC && tableOk OpD.all opc.tabD

/-- W2: the top 18 bits of a C key are no A/B key (R81). -/
def Opc.W2 (opc : Opc) : Bool :=
  opc.tabC.all fun c => decide (c.1.extractLsb' 3 18 ∉ opc.tabAB.map (·.1))

/-- W3: the top 18 bits of a D key are no A/B key and its top 21 bits are no C key (R81). -/
def Opc.W3 (opc : Opc) : Bool :=
  opc.tabD.all fun d =>
    decide (d.1.extractLsb' 8 18 ∉ opc.tabAB.map (·.1)) &&
      decide (d.1.extractLsb' 5 21 ∉ opc.tabC.map (·.1))

/-- A legal assignment: W1, W2 and W3 (R81). -/
def Opc.legal (opc : Opc) : Bool := opc.W1 && opc.W2 && opc.W3

/-- W4, recommended and not required: no key is 0 (R81). -/
def Opc.W4 (opc : Opc) : Bool :=
  opc.tabAB.all (fun k => decide (k.1 ≠ 0)) && opc.tabC.all (fun k => decide (k.1 ≠ 0)) &&
    opc.tabD.all (fun k => decide (k.1 ≠ 0))

/-- Legal parameters: `MEM_SIZE >= 1` and a legal `OPC` (R8). -/
def Params.wellFormed (p : Params) : Bool := decide (1 ≤ p.memSize) && p.opc.legal

/-- An instruction is well formed under an assignment when the assignment gives its operation a key
and, unless it is `PARAR`, its word is not the halt word (R75, R81 W4). -/
def Instr.wellFormed (opc : Opc) (i : Instr) : Bool :=
  match encode opc i with
  | none => false
  | some w => decide (w ≠ 0#32 ∨ i = .parar)

/-- The seven spellings in the order of R88. -/
def JmpMnemonics.toList (m : JmpMnemonics) : List Token :=
  [m.jZero, m.jPos, m.jNeg, m.jPar, m.jCarry, m.jOvf, m.jNovf]

/-- A token: not empty, and without whitespace (R87). -/
def Token.wellFormed (t : Token) : Bool := !t.isEmpty && t.all fun c => !c.isWhitespace

/-- Legal spellings of the conditional jumps, given the other mnemonics in use: seven distinct tokens
(R8), none of them another operation's mnemonic. -/
def JmpMnemonics.wellFormed (m : JmpMnemonics) (others : List Token) : Bool :=
  decide m.toList.Nodup && m.toList.all fun t => t.wellFormed && decide (t ∉ others)

end Sys2Proof
end

