-- ==== Sys2Proof/Machine/State.lean ====
section
/-! DEFINITION. Machine/State.lean: the machine's state as plain data, the reasons a step stops, and
the state after reset (`10_state.md`; `70_reset_and_hazards.md` rule R250). -/

namespace Sys2Proof.Machine

/-- Why the engine halted (R32). -/
inductive HaltReason where
  | haltWord
  | endOfMemory
  deriving DecidableEq, Repr

/-- Why the engine faulted (R32, R221). -/
inductive FaultReason where
  | divByZero
  | memBounds
  deriving DecidableEq, Repr

/-- The run state (R32): `FAULTED` also records the address of the faulting instruction. -/
inductive RunState where
  | running
  | halted (reason : HaltReason)
  | faulted (reason : FaultReason) (pc : Nat)
  deriving DecidableEq, Repr

/-- The kinds of non-fatal report (R34, R221). -/
inductive ReportKind where
  | unrecognizedOpcode
  | modByZero
  deriving DecidableEq, Repr

/-- A report record `{kind, pc, word}` (R34, R222). -/
structure Report where
  kind : ReportKind
  pc : Nat
  word : Word
  deriving DecidableEq, Repr

/-- The general registers `R0` to `R7`, eight ordinary words (R21, R22). -/
structure Regs where
  x0 : Word
  x1 : Word
  x2 : Word
  x3 : Word
  x4 : Word
  x5 : Word
  x6 : Word
  x7 : Word
  deriving DecidableEq, Repr

/-- Memory as a list of cells: byte `i` of the word at word address `a` stands at cell address
`4 * a + i`, least significant byte first, an order no program can observe (R55, log entry 1). An
unlisted cell reads as 0, since memory is zero-initialised (R50, R51). -/
abbrev Memory := List Host.Cell

/-- The state (R20), with two fields of the model's own: `params`, the machine's fixed parameters
(R8), and `draws`, how many free flag vectors have been drawn so far (R173). -/
structure State where
  /-- the model's own field: the parameters of this machine; no instruction changes them -/
  params : Params
  /-- the general registers -/
  x : Regs
  /-- the condition flags -/
  flags : Flags
  /-- the program counter, a word address; a natural number that never wraps (R25) -/
  pc : Nat
  /-- the one memory, holding instructions and data -/
  mem : Memory
  /-- the run state -/
  run : RunState
  /-- the report log, oldest first -/
  log : List Report
  /-- the model's own field: the number of draws made, so that each draw is a fresh free value -/
  draws : Nat
  deriving DecidableEq, Repr

/-- Why `step` gives no next state. Both constructors are raised by `step` alone and are safe: no step
is defined from a terminal run state (R32, R100, R232), and `step` then invents none. -/
inductive Fault where
  /-- `step` on a state whose run state is `HALTED(reason)`. Safe. -/
  | halted (reason : HaltReason)
  /-- `step` on a state whose run state is `FAULTED(reason, pc)`. Safe. -/
  | faulted (reason : FaultReason) (pc : Nat)
  deriving DecidableEq, Repr

/-- Why an instruction has no meaning. -/
inductive Refusal where
  /-- Raised by `exec` alone, for an instruction that is not modelled; every instruction is, so nothing
  raises it. Safe. -/
  | notModelled (mnemonic : String)
  deriving DecidableEq, Repr

/-- The reference parameters: each parameter's default (R8). -/
def Params.reference : Params where
  memSize := 2048
  opc := opcRef
  notOperand := .r1
  zeroBasis := .unmasked

/-- The machine right after reset (R41, R250): a fresh, all-zero memory, `run = RUNNING` and an empty
log, as the spec says. The registers, the flags and `pc` are launch inputs to which the spec gives no
value: zero here by choice (log entries 2, 3 and 4; `State.launch` takes every other value). -/
def State.reset : State where
  params := Params.reference
  x := ⟨0, 0, 0, 0, 0, 0, 0, 0⟩
  flags := ⟨false, false, false, false, false⟩
  pc := 0
  mem := []
  run := .running
  log := []
  draws := 0

end Sys2Proof.Machine
end

