-- ==== Sys2Proof/Machine/Alu.lean ====
section
/-! DEFINITION. Machine/Alu.lean: the word functions of Formats B and D, each written as the spec's
own arithmetic on unbounded integers with the truncation explicit (`00_scope.md` rule R10;
`42_register_immediate.md` rules R131 to R136; `44_register_register.md` rules R175 to R186). -/

namespace Sys2Proof.Machine

/-- `u mod 2^32`: an unbounded integer masked to a word (R10). -/
def maskWord (u : Int) : Word := BitVec.ofInt 32 u

/-- `bit31(u)`: bit 31 of the two's-complement representation of an integer (R10). -/
def bit31 (u : Int) : Bool := (maskWord u).getLsbD 31

/-! ## Format B

The shifts are the spec's formulas below 32, with its corner case for larger amounts written out. -/

/-- `(v * 2^k) mod 2^32`; 0 for `k >= 32` (R131). -/
def lslWord (v : Word) (k : Nat) : Word := if k < 32 then BitVec.ofNat 32 (v.toNat * 2 ^ k) else 0#32

/-- `v div 2^k`; 0 for `k >= 32` (R132). -/
def lsrWord (v : Word) (k : Nat) : Word := if k < 32 then BitVec.ofNat 32 (v.toNat / 2 ^ k) else 0#32

/-- `floor(sint32(v) / 2^k) mod 2^32`; for `k >= 32` every bit is bit 31 of `v` (R133). -/
def asrWord (v : Word) (k : Nat) : Word :=
  if k < 32 then maskWord (v.toInt / (2 : Int) ^ k)
  else if v.getLsbD 31 then 0xFFFFFFFF#32 else 0#32

/-- `((v * 2^s) mod 2^32) | (v div 2^(32 - s))` with `s = k mod 32` (R135). -/
def rotlWord (v : Word) (k : Nat) : Word :=
  BitVec.ofNat 32 (v.toNat * 2 ^ (k % 32)) ||| BitVec.ofNat 32 (v.toNat / 2 ^ (32 - k % 32))

/-- `(v div 2^s) | ((v * 2^(32 - s)) mod 2^32)` with `s = k mod 32` (R136). -/
def rotrWord (v : Word) (k : Nat) : Word :=
  BitVec.ofNat 32 (v.toNat / 2 ^ (k % 32)) ||| BitVec.ofNat 32 (v.toNat * 2 ^ (32 - k % 32))

/-! ## Format D: unmasked results, quotient and remainder -/

/-- The unmasked sum `a + b` (R179). -/
def unmaskedSum (a b : Word) : Int := (a.toNat : Int) + (b.toNat : Int)

/-- The unmasked difference `a - b` (R180, R184). -/
def unmaskedDifference (a b : Word) : Int := (a.toNat : Int) - (b.toNat : Int)

/-- The unmasked product `a * b` of unsigned words (R181). -/
def unmaskedProduct (a b : Word) : Int := (a.toNat : Int) * (b.toNat : Int)

/-- `a div b`, for a non-zero divisor (R182). -/
def quotient (a b : Word) : Word := BitVec.ofNat 32 (a.toNat / b.toNat)

/-- `a mod b`, for a non-zero divisor (R182, R186). -/
def remainder (a b : Word) : Word := BitVec.ofNat 32 (a.toNat % b.toNat)

/-- `~v = 0xFFFFFFFF - v` (R10, R178). -/
def complement (v : Word) : Word := 0xFFFFFFFF#32 - v

end Sys2Proof.Machine
end

