-- ==== Sys2Proof/Machine/Flags.lean ====
section
/-! DEFINITION. Machine/Flags.lean: the flag-update unit (`10_state.md` rules R27 to R30, R38;
`44_register_register.md` rules R171 to R174). It takes an operation tag and its operand words and
gives a next-flag vector and a write-enable vector. -/

namespace Sys2Proof.Machine

/-! ## Primitives (R171) -/

/-- `carry_add(u) = [u > 0xFFFFFFFF]`. -/
def carryAdd (u : Int) : Bool := decide (u > 0xFFFFFFFF)

/-- `borrow(u) = [u < 0]`. -/
def borrow (u : Int) : Bool := decide (u < 0)

/-- `zero(u)`: on the unmasked or the masked result, as `ZERO_BASIS` says (R174). -/
def zero (basis : ZeroBasis) (u : Int) : Bool :=
  match basis with
  | .unmasked => decide (u = 0)
  | .masked => decide (u % 2 ^ 32 = 0)

/-- `negative(u) = [u < 0]`. -/
def negative (u : Int) : Bool := decide (u < 0)

/-- `parity(u) = [u mod 2 == 0]`: 1 iff the result is even (R27). -/
def parity (u : Int) : Bool := decide (u % 2 = 0)

/-- `heur(a, b, u)`: equal operand signs and a result sign that differs. -/
def heur (a b : Word) (u : Int) : Bool :=
  (a.getLsbD 31 == b.getLsbD 31) && (bit31 u != a.getLsbD 31)

/-! ## The unit (R38, R172) -/

/-- What the flag unit gives: the next-flag vector and the write-enable vector. -/
structure FlagUpdate where
  next : Flags
  enable : Flags
  deriving DecidableEq, Repr

/-- Every flag is written with the given value. -/
def FlagUpdate.all (f : Flags) : FlagUpdate := ⟨f, ⟨true, true, true, true, true⟩⟩

/-- No flag is written. -/
def FlagUpdate.none : FlagUpdate :=
  ⟨⟨false, false, false, false, false⟩, ⟨false, false, false, false, false⟩⟩

/-- The flags after an update: a disabled flag keeps its value. -/
def FlagUpdate.apply (u : FlagUpdate) (f : Flags) : Flags where
  C := if u.enable.C then u.next.C else f.C
  Z := if u.enable.Z then u.next.Z else f.Z
  N := if u.enable.N then u.next.N else f.N
  P := if u.enable.P then u.next.P else f.P
  V := if u.enable.V then u.next.V else f.V

/-- `SUMAR`: all five flags; overflow is the unsigned check or the heuristic (R179). -/
def sumarFlags (basis : ZeroBasis) (a b : Word) : FlagUpdate :=
  let u := unmaskedSum a b
  .all ⟨carryAdd u, zero basis u, negative u, parity u, carryAdd u || heur a b u⟩

/-- `RESTAR`: all five flags; carry is the borrow, overflow the heuristic alone (R180). -/
def restarFlags (basis : ZeroBasis) (a b : Word) : FlagUpdate :=
  let u := unmaskedDifference a b
  .all ⟨borrow u, zero basis u, negative u, parity u, heur a b u⟩

/-- `MULT`: all five flags; overflow is the heuristic alone (R181). -/
def multFlags (basis : ZeroBasis) (a b : Word) : FlagUpdate :=
  let u := unmaskedProduct a b
  .all ⟨carryAdd u, zero basis u, negative u, parity u, heur a b u⟩

/-- `COMP`: `Z`, `N` and `C` only (R184). -/
def compFlags (basis : ZeroBasis) (a b : Word) : FlagUpdate :=
  let u := unmaskedDifference a b
  ⟨⟨borrow u, zero basis u, negative u, false, false⟩, ⟨true, true, true, false, false⟩⟩

/-- The flag unit's function of the operation and its operands (R172). `drawn` is the free flag vector
that `DIV`, and `MOD` by a non-zero divisor, leave (R173). -/
def flagUnit (basis : ZeroBasis) (op : OpD) (a b : Word) (drawn : Flags) : FlagUpdate :=
  match op with
  | .or => .none
  | .and => .none
  | .xor => .none
  | .not => .none
  | .sumar => sumarFlags basis a b
  | .restar => restarFlags basis a b
  | .mult => multFlags basis a b
  | .div => .all drawn
  | .copiar => .none
  | .comp => compFlags basis a b
  | .intercambiar => .none
  | .mod => if b = 0#32 then .none else .all drawn

/-- Whether the operation takes a free flag vector (R28, R173). -/
def drawsFlags (op : OpD) (b : Word) : Bool :=
  match op with
  | .div => true
  | .mod => decide (b ≠ 0#32)
  | .or | .and | .xor | .not | .sumar | .restar | .mult | .copiar | .comp | .intercambiar => false

/-- The five flags packed for display: `[0]=C, [1]=Z, [2]=N, [3]=P, [4]=V` (R30). -/
def packFlags (f : Flags) : BitVec 5 :=
  BitVec.ofBool f.V ++ BitVec.ofBool f.P ++ BitVec.ofBool f.N ++ BitVec.ofBool f.Z ++
    BitVec.ofBool f.C

end Sys2Proof.Machine
end

