-- ==== Sys2Proof/Machine/Memory.lean ====
section
/-! DEFINITION. Machine/Memory.lean: reading and writing the memory list (`20_memory.md` rules R50 to
R57). The list is canonical when its addresses rise strictly and no entry is zero, the value an
unlisted cell reads as; every operation keeps that form, so equal memories are equal data. -/

namespace Sys2Proof.Machine

/-- The canonical form: addresses strictly rising and no listed zero. -/
def Memory.wf : Memory → Bool
  | [] => true
  | c :: rest => decide (c.2 ≠ 0#8) && rest.all (fun d => decide (c.1 < d.1)) && Memory.wf rest

/-- Every listed cell belongs to one of the `memSize` words (R50). -/
def Memory.inside (m : Memory) (memSize : Nat) : Bool := m.all fun c => decide (c.1 < 4 * memSize)

/-- The byte at a cell address; an unlisted cell reads as 0 (R51). -/
def Memory.readByte : Memory → Nat → Byte
  | [], _ => 0#8
  | c :: rest, a => if c.1 = a then c.2 else Memory.readByte rest a

/-- Put a byte at a cell address, keeping the canonical form. -/
def Memory.writeByte : Memory → Nat → Byte → Memory
  | [], a, v => if v = 0#8 then [] else [(a, v)]
  | c :: rest, a, v =>
    if a < c.1 then (if v = 0#8 then c :: rest else (a, v) :: c :: rest)
    else if a = c.1 then (if v = 0#8 then rest else (a, v) :: rest)
    else c :: Memory.writeByte rest a v

/-- Byte `i` of a word, byte 0 the least significant (log entry 1). -/
def wordByte (v : Word) (i : Nat) : Byte := v.extractLsb' (8 * i) 8

/-- `mem[a]`: the word at a word address (R50). -/
def Memory.readWord (m : Memory) (a : Nat) : Word :=
  m.readByte (4 * a + 3) ++ m.readByte (4 * a + 2) ++ m.readByte (4 * a + 1) ++ m.readByte (4 * a)

/-- `mem[a] <- v`: the whole word at a word address (R57). -/
def Memory.writeWord (m : Memory) (a : Nat) (v : Word) : Memory :=
  (((m.writeByte (4 * a) (wordByte v 0)).writeByte (4 * a + 1) (wordByte v 1)).writeByte
    (4 * a + 2) (wordByte v 2)).writeByte (4 * a + 3) (wordByte v 3)

/-- The words at `n` addresses from `a` on, without a bound: an address at or past `MEM_SIZE`, of which
the spec says nothing here, reads as the unlisted cells there do, 0 (DESIGN CHOICE, log entry 17). -/
def Memory.window (m : Memory) (a : Nat) : Nat → List Word
  | 0 => []
  | n + 1 => m.readWord a :: Memory.window m (a + 1) n

end Sys2Proof.Machine
end

