-- ==== Sys2Proof/Machine/Operands.lean ====
section
/-! DEFINITION. Machine/Operands.lean: the operand forms: a register operand, the zero-extended
immediate of Format B, and the absolute word address of Formats A and C (`10_state.md` rules R21 to
R24, R37; `30_encoding.md` rules R77 to R79). -/

namespace Sys2Proof.Machine

/-- `x[r]`: read a register (R21). -/
def Regs.get (x : Regs) : Reg → Word
  | .R0 => x.x0
  | .R1 => x.x1
  | .R2 => x.x2
  | .R3 => x.x3
  | .R4 => x.x4
  | .R5 => x.x5
  | .R6 => x.x6
  | .R7 => x.x7

/-- `x[r] <- v`: write a register (R21); no register is hard-wired (R22). -/
def Regs.set (x : Regs) (r : Reg) (v : Word) : Regs :=
  match r with
  | .R0 => { x with x0 := v }
  | .R1 => { x with x1 := v }
  | .R2 => { x with x2 := v }
  | .R3 => { x with x3 := v }
  | .R4 => { x with x4 := v }
  | .R5 => { x with x5 := v }
  | .R6 => { x with x6 := v }
  | .R7 => { x with x7 := v }

/-- Both write ports in one cycle: where they name one register, port 2 takes effect (R37). -/
def Regs.set2 (x : Regs) (r1 : Reg) (v1 : Word) (r2 : Reg) (v2 : Word) : Regs :=
  (x.set r1 v1).set r2 v2

/-- A register file made of the value of each register. -/
def Regs.build (f : Reg → Word) : Regs :=
  ⟨f .R0, f .R1, f .R2, f .R3, f .R4, f .R5, f .R6, f .R7⟩

/-- The Format B immediate as an amount, `0..2047`, unsigned (R78). -/
def amount (k : Field11) : Nat := k.toNat

/-- The Format B immediate as a word, `zext_32(k)` (R78). -/
def immediate (k : Field11) : Word := k.setWidth 32

/-- The absolute word address of a Format A address or Format C target field (R79). -/
def address (f : Field11) : Nat := f.toNat

/-- `NOT`'s source register, as `NOT_OPERAND` says (R178). -/
def notSource (n : NotOperand) (r1 r2 : Reg) : Reg :=
  match n with
  | .r1 => r1
  | .r2 => r2

end Sys2Proof.Machine
end

