-- ==== Sys2Proof/Machine/Ops.lean ====
section
/-! DEFINITION. Machine/Ops.lean: the spec's pseudocode primitives as operations on the state
(`00_scope.md` rule R11; `20_memory.md` rule R52; `60_exceptions.md` rules R220 to R223), the launch
of an engine (`10_state.md` rule R41) and the dump accessor (`40_execution_engine.md` rule R110).
The machine has no trap entry and no return from one (R220, R226): what an instruction can do instead
of completing is `raise Fault`, one shared operation below. -/

namespace Sys2Proof.Machine

/-! ## Registers, flags and the program counter -/

/-- `x[r]`. -/
def State.reg (s : State) (r : Reg) : Word := s.x.get r

/-- `x[r] <- v`. -/
def State.setReg (s : State) (r : Reg) (v : Word) : State := { s with x := s.x.set r v }

/-- Two register writes in one cycle, the second one winning (R37). -/
def State.setReg2 (s : State) (r1 : Reg) (v1 : Word) (r2 : Reg) (v2 : Word) : State :=
  { s with x := s.x.set2 r1 v1 r2 v2 }

/-- The free flag vector the next drawing execution takes (R173). -/
def State.drawn (s : State) (op : OpD) (a b : Word) : Flags :=
  Config.divModFlags s.draws op a b s.flags

/-- The flag unit on a Format D operation and its operand words (R38), counting a draw if it takes
one. -/
def State.updateFlags (s : State) (op : OpD) (a b : Word) : State :=
  { s with
    flags := (flagUnit s.params.zeroBasis op a b (s.drawn op a b)).apply s.flags
    draws := if drawsFlags op b then s.draws + 1 else s.draws }

/-- `next <- pc + 1` (R26). -/
def State.advance (s : State) : State := { s with pc := s.pc + 1 }

/-- `next <- cond ? target : pc + 1` (R106, R150). -/
def State.jumpIf (s : State) (cond : Bool) (target : Field11) : State :=
  { s with pc := if cond then address target else s.pc + 1 }

/-! ## Memory (R52) -/

/-- `MemRead(addr, 1)`: a data read, or the fault it raises. -/
def State.memRead (s : State) (addr : Nat) : Except FaultReason Word :=
  if addr < s.params.memSize then .ok (s.mem.readWord addr) else .error .memBounds

/-- `MemWrite(addr, 1, v)`: a data write, or the fault it raises. -/
def State.memWrite (s : State) (addr : Nat) (v : Word) : Except FaultReason State :=
  if addr < s.params.memSize then .ok { s with mem := s.mem.writeWord addr v }
  else .error .memBounds

/-- Instruction fetch: the word at `pc`, or none past the end of memory (R52, R102). -/
def State.fetch (s : State) : Option Word :=
  if s.pc < s.params.memSize then some (s.mem.readWord s.pc) else none

/-! ## Reports, halts and faults -/

/-- `report(kind, pc, w)`: append a record with the address and the word of the instruction being
executed, which during a cycle is `mem[pc]` (R25, R34, R222). -/
def State.report (s : State) (kind : ReportKind) : State :=
  { s with log := s.log ++ [⟨kind, s.pc, s.mem.readWord s.pc⟩] }

/-- `halt(reason)`: the run ends and `pc` keeps its value (R102, R103). -/
def State.halt (s : State) (reason : HaltReason) : State := { s with run := .halted reason }

/-- `raise Fault(reason)`: only the run state changes, recording the instruction's address (R223). -/
def State.raise (s : State) (reason : FaultReason) : State :=
  { s with run := .faulted reason s.pc }

/-- End an instruction that may have raised a fault: a fault leaves the state `s` before the
instruction with only its run state changed, so faults are precise (R223). -/
def State.complete (s : State) (result : Except FaultReason State) :
    Host.Outcome State Fault Refusal :=
  match result with
  | .ok t => .next t
  | .error reason => .next (s.raise reason)

/-! ## Launch and observation -/

/-- `run(mem, ENTRY)` creates an engine instance (R41, R108, R250), with the launch inputs
`INIT_REGS` and `INIT_FLAGS`. `draws` is the model's own count, free at a launch. -/
def State.launch (p : Params) (initRegs : Regs) (initFlags : Flags) (draws : Nat) (mem : Memory)
    (entry : Nat) : State where
  params := p
  x := initRegs
  flags := initFlags
  pc := entry
  mem := mem
  run := .running
  log := []
  draws := draws

/-- What the state/dump accessor exposes (R110). -/
structure Dump where
  x : Regs
  flags : BitVec 5
  pc : Nat
  run : RunState
  log : List Report
  window : List Word
  deriving DecidableEq, Repr

/-- The dump accessor: registers, flags packed for display, `pc`, run state, log and the `n` memory
words from `start` on; it writes nothing (R110, R231). DESIGN CHOICE (log entry 17): the spec speaks
only of a window of `mem` and says nothing of one that reaches an address at or past `MEM_SIZE`; such a
request is neither clipped nor rejected, and shows there what an unlisted cell reads as, 0. -/
def State.dump (s : State) (start n : Nat) : Dump where
  x := s.x
  flags := packFlags s.flags
  pc := s.pc
  run := s.run
  log := s.log
  window := s.mem.window start n

end Sys2Proof.Machine
end

