-- ==== Sys2Proof/Machine/Halt.lean ====
section
/-! DEFINITION. Machine/Halt.lean: the halt word `PARAR` and the cycle of an unrecognized word
(`40_execution_engine.md` rules R103, R105). -/

namespace Sys2Proof.Machine

/-- `PARAR`: `halt(HALT_WORD)`; `pc` is not incremented (R103). -/
def execParar (s : State) : Host.Outcome State Fault Refusal := .next (s.halt .haltWord)

/-- An unrecognized word: a report, and otherwise a no-op (R105). -/
def unrecognizedCycle (s : State) : Host.Outcome State Fault Refusal :=
  .next (s.report .unrecognizedOpcode).advance

end Sys2Proof.Machine
end

