-- ==== Sys2Proof/Machine/Jump.lean ====
section
/-! DEFINITION. Machine/Jump.lean: Format C (`43_jump.md` rules R150 to R158). A jump tests one flag
or none and changes nothing but `pc`. -/

namespace Sys2Proof.Machine

/-- `SALTAR t` (R151). -/
def execSaltar (target : Field11) (s : State) : Host.Outcome State Fault Refusal :=
  .next (s.jumpIf true target)

/-- `J_ZERO t`: `Z == 1` (R152). -/
def execJZero (target : Field11) (s : State) : Host.Outcome State Fault Refusal :=
  .next (s.jumpIf s.flags.Z target)

/-- `J_POS t`: `N == 0` (R153). -/
def execJPos (target : Field11) (s : State) : Host.Outcome State Fault Refusal :=
  .next (s.jumpIf (!s.flags.N) target)

/-- `J_NEG t`: `N == 1` (R154). -/
def execJNeg (target : Field11) (s : State) : Host.Outcome State Fault Refusal :=
  .next (s.jumpIf s.flags.N target)

/-- `J_PAR t`: `P == 1` (R155). -/
def execJPar (target : Field11) (s : State) : Host.Outcome State Fault Refusal :=
  .next (s.jumpIf s.flags.P target)

/-- `J_CARRY t`: `C == 1` (R156). -/
def execJCarry (target : Field11) (s : State) : Host.Outcome State Fault Refusal :=
  .next (s.jumpIf s.flags.C target)

/-- `J_OVF t`: `V == 1` (R157). -/
def execJOvf (target : Field11) (s : State) : Host.Outcome State Fault Refusal :=
  .next (s.jumpIf s.flags.V target)

/-- `J_NOVF t`: `V == 0` (R158). -/
def execJNovf (target : Field11) (s : State) : Host.Outcome State Fault Refusal :=
  .next (s.jumpIf (!s.flags.V) target)

end Sys2Proof.Machine
end

