-- ==== Sys2Proof/Machine/RegisterImmediate.lean ====
section
/-! DEFINITION. Machine/RegisterImmediate.lean: Format B (`42_register_immediate.md` rules R130 to
R136). No instruction of the family touches a flag. -/

namespace Sys2Proof.Machine

/-- The family's shape: a register gets a word and the engine goes on (R130). -/
def State.putRegister (s : State) (r : Reg) (v : Word) : Host.Outcome State Fault Refusal :=
  .next (s.setReg r v).advance

/-- `LSL r, k` (R131). -/
def execLsl (r : Reg) (k : Field11) (s : State) : Host.Outcome State Fault Refusal :=
  s.putRegister r (lslWord (s.reg r) (amount k))

/-- `LSR r, k` (R132). -/
def execLsr (r : Reg) (k : Field11) (s : State) : Host.Outcome State Fault Refusal :=
  s.putRegister r (lsrWord (s.reg r) (amount k))

/-- `ASR r, k` (R133). -/
def execAsr (r : Reg) (k : Field11) (s : State) : Host.Outcome State Fault Refusal :=
  s.putRegister r (asrWord (s.reg r) (amount k))

/-- `CARGARVALOR r, k` (R134). -/
def execCargarValor (r : Reg) (k : Field11) (s : State) : Host.Outcome State Fault Refusal :=
  s.putRegister r (immediate k)

/-- `ROTACIONL r, k` (R135). -/
def execRotacionL (r : Reg) (k : Field11) (s : State) : Host.Outcome State Fault Refusal :=
  s.putRegister r (rotlWord (s.reg r) (amount k))

/-- `ROTACIONR r, k` (R136). -/
def execRotacionR (r : Reg) (k : Field11) (s : State) : Host.Outcome State Fault Refusal :=
  s.putRegister r (rotrWord (s.reg r) (amount k))

end Sys2Proof.Machine
end

