-- ==== Sys2Proof/Machine/RegisterMemory.lean ====
section
/-! DEFINITION. Machine/RegisterMemory.lean: Format A (`41_register_memory.md` rules R120, R121). -/

namespace Sys2Proof.Machine

/-- `CARGAR r, addr` (R120). -/
def execCargar (r : Reg) (addr : Field11) (s : State) : Host.Outcome State Fault Refusal :=
  s.complete ((s.memRead (address addr)).map fun v => (s.setReg r v).advance)

/-- `ALMACENAR r, addr` (R121). -/
def execAlmacenar (r : Reg) (addr : Field11) (s : State) : Host.Outcome State Fault Refusal :=
  s.complete ((s.memWrite (address addr) (s.reg r)).map fun t => t.advance)

end Sys2Proof.Machine
end

