-- ==== Sys2Proof/Machine/RegisterRegister.lean ====
section
/-! DEFINITION. Machine/RegisterRegister.lean: Format D (`44_register_register.md` rules R170 to R187).
`a` and `b` are the operand words read at the start of the instruction (R107, R170). -/

namespace Sys2Proof.Machine

/-- The family's shape for one destination: a register gets a word, the flag unit sees the operation
and its operands, and the engine goes on (R170). -/
def State.alu (s : State) (op : OpD) (a b : Word) (dest : Reg) (v : Word) :
    Host.Outcome State Fault Refusal :=
  .next ((s.setReg dest v).updateFlags op a b).advance

/-- `OR r1, r2` (R175). -/
def execOr (r1 r2 : Reg) (s : State) : Host.Outcome State Fault Refusal :=
  let a := s.reg r1
  let b := s.reg r2
  s.alu .or a b r1 (a ||| b)

/-- `AND r1, r2` (R176). -/
def execAnd (r1 r2 : Reg) (s : State) : Host.Outcome State Fault Refusal :=
  let a := s.reg r1
  let b := s.reg r2
  s.alu .and a b r1 (a &&& b)

/-- `XOR r1, r2` (R177). -/
def execXor (r1 r2 : Reg) (s : State) : Host.Outcome State Fault Refusal :=
  let a := s.reg r1
  let b := s.reg r2
  s.alu .xor a b r1 (a ^^^ b)

/-- `NOT r1, r2`: the complement of the register `NOT_OPERAND` names goes to `r1` (R178). -/
def execNot (r1 r2 : Reg) (s : State) : Host.Outcome State Fault Refusal :=
  let a := s.reg r1
  let b := s.reg r2
  s.alu .not a b r1 (complement (s.reg (notSource s.params.notOperand r1 r2)))

/-- `SUMAR r1, r2` (R179). -/
def execSumar (r1 r2 : Reg) (s : State) : Host.Outcome State Fault Refusal :=
  let a := s.reg r1
  let b := s.reg r2
  s.alu .sumar a b r1 (maskWord (unmaskedSum a b))

/-- `RESTAR r1, r2` (R180). -/
def execRestar (r1 r2 : Reg) (s : State) : Host.Outcome State Fault Refusal :=
  let a := s.reg r1
  let b := s.reg r2
  s.alu .restar a b r1 (maskWord (unmaskedDifference a b))

/-- `MULT r1, r2` (R181). -/
def execMult (r1 r2 : Reg) (s : State) : Host.Outcome State Fault Refusal :=
  let a := s.reg r1
  let b := s.reg r2
  s.alu .mult a b r1 (maskWord (unmaskedProduct a b))

/-- `DIV r1, r2`: a zero divisor faults and writes nothing; otherwise quotient, then remainder, and
free flags (R173, R182). -/
def execDiv (r1 r2 : Reg) (s : State) : Host.Outcome State Fault Refusal :=
  let a := s.reg r1
  let b := s.reg r2
  if b = 0#32 then s.complete (.error .divByZero)
  else .next ((s.setReg2 r1 (quotient a b) r2 (remainder a b)).updateFlags .div a b).advance

/-- `COPIAR r1, r2`: `r2` gets `r1` (R183). -/
def execCopiar (r1 r2 : Reg) (s : State) : Host.Outcome State Fault Refusal :=
  let a := s.reg r1
  let b := s.reg r2
  s.alu .copiar a b r2 a

/-- `COMP r1, r2`: flags only (R184). -/
def execComp (r1 r2 : Reg) (s : State) : Host.Outcome State Fault Refusal :=
  .next (s.updateFlags .comp (s.reg r1) (s.reg r2)).advance

/-- `INTERCAMBIAR r1, r2` (R185). -/
def execIntercambiar (r1 r2 : Reg) (s : State) : Host.Outcome State Fault Refusal :=
  let a := s.reg r1
  let b := s.reg r2
  .next ((s.setReg2 r1 b r2 a).updateFlags .intercambiar a b).advance

/-- `MOD r1, r2`: a zero divisor is reported and changes nothing else; otherwise the remainder and
free flags (R173, R186). -/
def execMod (r1 r2 : Reg) (s : State) : Host.Outcome State Fault Refusal :=
  let a := s.reg r1
  let b := s.reg r2
  if b = 0#32 then .next (s.report .modByZero).advance
  else s.alu .mod a b r1 (remainder a b)

end Sys2Proof.Machine
end

