-- ==== Sys2Proof/Machine/Dispatch.lean ====
section
/-! DEFINITION. Machine/Dispatch.lean: one arm per instruction, each one call of its meaning (R104). -/

namespace Sys2Proof.Machine

def exec (i : Instr) (s : State) : Host.Outcome State Fault Refusal :=
  match i with
  | .parar => Sys2Proof.Machine.execParar s
  | .cargar r addr => Sys2Proof.Machine.execCargar r addr s
  | .almacenar r addr => Sys2Proof.Machine.execAlmacenar r addr s
  | .lsl r k => Sys2Proof.Machine.execLsl r k s
  | .lsr r k => Sys2Proof.Machine.execLsr r k s
  | .asr r k => Sys2Proof.Machine.execAsr r k s
  | .cargarValor r k => Sys2Proof.Machine.execCargarValor r k s
  | .rotacionL r k => Sys2Proof.Machine.execRotacionL r k s
  | .rotacionR r k => Sys2Proof.Machine.execRotacionR r k s
  | .saltar target => Sys2Proof.Machine.execSaltar target s
  | .jZero target => Sys2Proof.Machine.execJZero target s
  | .jPos target => Sys2Proof.Machine.execJPos target s
  | .jNeg target => Sys2Proof.Machine.execJNeg target s
  | .jPar target => Sys2Proof.Machine.execJPar target s
  | .jCarry target => Sys2Proof.Machine.execJCarry target s
  | .jOvf target => Sys2Proof.Machine.execJOvf target s
  | .jNovf target => Sys2Proof.Machine.execJNovf target s
  | .or r1 r2 => Sys2Proof.Machine.execOr r1 r2 s
  | .and r1 r2 => Sys2Proof.Machine.execAnd r1 r2 s
  | .xor r1 r2 => Sys2Proof.Machine.execXor r1 r2 s
  | .not r1 r2 => Sys2Proof.Machine.execNot r1 r2 s
  | .sumar r1 r2 => Sys2Proof.Machine.execSumar r1 r2 s
  | .restar r1 r2 => Sys2Proof.Machine.execRestar r1 r2 s
  | .mult r1 r2 => Sys2Proof.Machine.execMult r1 r2 s
  | .div r1 r2 => Sys2Proof.Machine.execDiv r1 r2 s
  | .copiar r1 r2 => Sys2Proof.Machine.execCopiar r1 r2 s
  | .comp r1 r2 => Sys2Proof.Machine.execComp r1 r2 s
  | .intercambiar r1 r2 => Sys2Proof.Machine.execIntercambiar r1 r2 s
  | .mod r1 r2 => Sys2Proof.Machine.execMod r1 r2 s

end Sys2Proof.Machine
end

