-- ==== Sys2Proof/Machine/Engine.lean ====
section
/-! DEFINITION. Machine/Engine.lean: one cycle of the running engine (`40_execution_engine.md` rules
R101 to R106; order of the checks: `60_exceptions.md` rule R224). -/

namespace Sys2Proof.Machine

/-- One cycle from `run = RUNNING` (R101): end of memory, then fetch, then the halt word (which the
decoder gives as `PARAR`), then an unrecognized word, then the instruction. -/
def cycle (s : State) : Host.Outcome State Fault Refusal :=
  match s.fetch with
  | none => .next (s.halt .endOfMemory)
  | some w =>
    match decode s.params.opc w with
    | none => unrecognizedCycle s
    | some i => exec i s

/-- `s` with a word stored at the address its next fetch reads, running; a `pc` past the end of memory
has no such address and is first set to 0. -/
def placeAtFetch (s : State) (w : Word) : State :=
  let pc := if s.pc < s.params.memSize then s.pc else 0
  { s with pc := pc, mem := s.mem.writeWord pc w, run := .running }

end Sys2Proof.Machine
end

