-- ==== Sys2Proof/Machine/Step.lean ====
section
/-! DEFINITION. Machine/Step.lean: one step of the machine. A cycle is defined only in `RUNNING` (R100,
R101); `HALTED` and `FAULTED` are terminal and `step` stops on them by name (R32, R232). -/

namespace Sys2Proof.Machine

/-- One step: a cycle if the engine is running, a named stop if its run has ended (R32, R101). -/
def step (s : State) : Host.Outcome State Fault Refusal :=
  match s.run with
  | .running => cycle s
  | .halted reason => .fault (.halted reason)
  | .faulted reason pc => .fault (.faulted reason pc)

/-- `s` with an opcode-table word stored where `step` fetches its next instruction (one 32-bit word,
R70; bits above `nbits` zero). -/
def State.withFetchWord (s : State) (nbits w : Nat) : State :=
  placeAtFetch s (BitVec.ofNat 32 (w % 2 ^ nbits))

end Sys2Proof.Machine
end

