-- ==== Sys2Proof/Machine/Loader.lean ====
section
/-! DEFINITION. Machine/Loader.lean: the linker-loader, as far as it fixes the initial memory image
(`70_reset_and_hazards.md` rules R251 to R254; `00_scope.md` rule R4). -/

namespace Sys2Proof.Machine

/-- Why a load fails; a failed load gives no image (R254). `index` is the instruction that failed. -/
inductive LoadError where
  /-- an empty input sequence -/
  | emptyInput
  /-- `base + index >= MEM_SIZE` -/
  | imageOverflow (index : Nat) (addr : Nat)
  /-- a relocated address above 2047 -/
  | relocationOverflow (index : Nat) (addr : Nat)
  deriving DecidableEq, Repr

/-- A word is memory-referencing when it decodes to Format A or C (R253). -/
def memoryReferencing (opc : Opc) (w : Word) : Bool :=
  match classify opc w with
  | .A _ _ _ => true
  | .C _ _ => true
  | .halt => false
  | .unrecognized => false
  | .B _ _ _ => false
  | .D _ _ _ => false

/-- `w[31:11] ++ a[10:0]`: a word with its low 11 bits rewritten (R253). -/
def withLowField (w : Word) (a : Nat) : Word := fieldOpC w ++ BitVec.ofNat 11 a

/-- The relocated address of a word: `base + w[10:0]` (R253). -/
def relocatedAddress (base : Nat) (w : Word) : Nat := base + address (fieldLow w)

/-- A word as the loader places it; none if its relocated address does not fit 11 bits (R253, R254). -/
def relocate (opc : Opc) (base : Nat) (w : Word) : Option Word :=
  if memoryReferencing opc w then
    if relocatedAddress base w > 2047 then none else some (withLowField w (relocatedAddress base w))
  else some w

/-- The loader's loop from instruction `index` on (R252, R253). -/
def loadFrom (p : Params) (base index : Nat) (mem : Memory) : List Word → Except LoadError Memory
  | [] => .ok mem
  | w :: rest =>
    match relocate p.opc base w with
    | none => .error (.relocationOverflow index (relocatedAddress base w))
    | some w' =>
      if base + index < p.memSize then
        loadFrom p base (index + 1) (mem.writeWord (base + index) w') rest
      else .error (.imageOverflow index (base + index))

/-- `BASE`'s default: the base address of a load that names none (R7, R8, R252). -/
def defaultBase : Nat := 0

/-- `load(words, base)`: word `i`, relocated, at `base + i`; all other cells keep the value they have in
`mem`, which is 0 everywhere in a fresh memory (R252). -/
def load (p : Params) (mem : Memory) (words : List Word)
    (base : Nat := defaultBase) : Except LoadError Memory :=
  if words = [] then .error .emptyInput else loadFrom p base 0 mem words

end Sys2Proof.Machine
end

