-- ==== Sys2Proof/Machine/Assembler.lean ====
section
/-! DEFINITION. Machine/Assembler.lean: the assembler, as far as it fixes the encoding
(`30_encoding.md` rules R87 to R93; `00_scope.md` rule R4), and the boot sequence
(`70_reset_and_hazards.md` rule R251). A line is its list of characters. -/

namespace Sys2Proof.Machine

/-- Why a line is rejected (R90). -/
inductive AsmError where
  | unknownOperation
  | unknownRegister
  | badOperand
  | operandCount
  /-- the assignment has no key for the operation; never so under a legal assignment (R81) -/
  | noEncoding
  deriving DecidableEq, Repr

/-- What a mnemonic selects from the combined operation table (R87, R88). -/
inductive Mnemonic where
  | halt
  | a (op : OpA)
  | b (op : OpB)
  | c (op : OpC)
  | d (op : OpD)
  deriving DecidableEq, Repr

/-- The 22 mnemonics the source spells (R3, R88). -/
def fixedMnemonics : List (Token × Mnemonic) :=
  [("PARAR".toList, .halt), ("CARGAR".toList, .a .cargar), ("ALMACENAR".toList, .a .almacenar),
   ("LSL".toList, .b .lsl), ("LSR".toList, .b .lsr), ("ASR".toList, .b .asr),
   ("CARGARVALOR".toList, .b .cargarValor), ("ROTACIONL".toList, .b .rotacionL),
   ("ROTACIONR".toList, .b .rotacionR), ("SALTAR".toList, .c .saltar)] ++
  [("OR".toList, .d .or), ("AND".toList, .d .and), ("XOR".toList, .d .xor), ("NOT".toList, .d .not),
   ("SUMAR".toList, .d .sumar), ("RESTAR".toList, .d .restar), ("MULT".toList, .d .mult),
   ("DIV".toList, .d .div), ("COPIAR".toList, .d .copiar), ("COMP".toList, .d .comp),
   ("INTERCAMBIAR".toList, .d .intercambiar), ("MOD".toList, .d .mod)]

/-- The seven conditional jumps under their spellings (R88). -/
def jumpMnemonics (m : JmpMnemonics) : List (Token × Mnemonic) :=
  [(m.jZero, .c .jZero), (m.jPos, .c .jPos), (m.jNeg, .c .jNeg), (m.jPar, .c .jPar),
   (m.jCarry, .c .jCarry), (m.jOvf, .c .jOvf), (m.jNovf, .c .jNovf)]

/-- The combined operation table (R87). -/
def mnemonicTable (m : JmpMnemonics) : List (Token × Mnemonic) := fixedMnemonics ++ jumpMnemonics m

/-- The spec's own labels of the seven conditional jumps (R3, R88). -/
def JmpMnemonics.reference : JmpMnemonics where
  jZero := "J_ZERO".toList
  jPos := "J_POS".toList
  jNeg := "J_NEG".toList
  jPar := "J_PAR".toList
  jCarry := "J_CARRY".toList
  jOvf := "J_OVF".toList
  jNovf := "J_NOVF".toList

/-! ## Tokens and operands -/

/-- Split a line on whitespace, given the token being read (R87). -/
def tokensFrom (current : Token) : List Char → List Token
  | [] => if current = [] then [] else [current]
  | c :: rest =>
    if c.isWhitespace then
      if current = [] then tokensFrom [] rest else current :: tokensFrom [] rest
    else tokensFrom (current ++ [c]) rest

/-- The tokens of a line (R87). -/
def tokens (line : List Char) : List Token := tokensFrom [] line

/-- A register token, `R0` to `R7` (R87, R90). -/
def Reg.name : Reg → Token
  | .R0 => ['R', '0'] | .R1 => ['R', '1'] | .R2 => ['R', '2'] | .R3 => ['R', '3']
  | .R4 => ['R', '4'] | .R5 => ['R', '5'] | .R6 => ['R', '6'] | .R7 => ['R', '7']

/-- The register a token names. -/
def parseReg (t : Token) : Except AsmError Reg :=
  match Reg.all.find? fun r => decide (Reg.name r = t) with
  | some r => .ok r
  | none => .error .unknownRegister

/-- The decimal digit of a number below 10; `'0'` is character 48. -/
def digitChar (n : Nat) : Char := Char.ofNat (48 + n)

/-- The number a decimal digit stands for. -/
def digitValue (c : Char) : Nat := c.toNat - 48

/-- The value of a string of decimal digits, most significant first. -/
def digitsValue (digits : List Char) : Nat := digits.foldl (fun acc c => acc * 10 + digitValue c) 0

/-- An 11-bit operand: a non-negative decimal integer below 2048 (R87, R88, R90). -/
def parseField (t : Token) : Except AsmError Field11 :=
  if t ≠ [] ∧ t.all Char.isDigit ∧ digitsValue t < 2048 then .ok (BitVec.ofNat 11 (digitsValue t))
  else .error .badOperand

/-! ## Lines and batches -/

/-- The instruction of a line's operation and operand tokens (R88, R90). -/
def parseOperands (op : Mnemonic) (operands : List Token) : Except AsmError Instr :=
  match op, operands with
  | .halt, [] => .ok .parar
  | .a op, [r, f] => (parseReg r).bind fun r => (parseField f).map fun f => op.instr r f
  | .b op, [r, f] => (parseReg r).bind fun r => (parseField f).map fun f => op.instr r f
  | .c op, [f] => (parseField f).map fun f => op.instr f
  | .d op, [r1, r2] => (parseReg r1).bind fun r1 => (parseReg r2).map fun r2 => op.instr r1 r2
  | .halt, _ => .error .operandCount
  | .a _, _ => .error .operandCount
  | .b _, _ => .error .operandCount
  | .c _, _ => .error .operandCount
  | .d _, _ => .error .operandCount

/-- The instruction a line writes; the first token selects the operation (R87). A line without a token
selects none. -/
def parseLine (m : JmpMnemonics) (line : List Char) : Except AsmError Instr :=
  match tokens line with
  | [] => .error .unknownOperation
  | t :: operands =>
    match (mnemonicTable m).lookup t with
    | none => .error .unknownOperation
    | some op => parseOperands op operands

/-- `assemble(line)`: one line to one word (R89). -/
def assembleLine (m : JmpMnemonics) (opc : Opc) (line : List Char) : Except AsmError Word :=
  (parseLine m line).bind fun i =>
    match encode opc i with
    | some w => .ok w
    | none => .error .noEncoding

/-- The words of the lines that assemble, and the errors of those that do not, with line numbers from
`index` on. -/
def assembleFrom (m : JmpMnemonics) (opc : Opc) (index : Nat) :
    List (List Char) → List Word × List (Nat × AsmError)
  | [] => ([], [])
  | line :: rest =>
    let (words, errors) := assembleFrom m opc (index + 1) rest
    match assembleLine m opc line with
    | .ok w => (w :: words, errors)
    | .error e => (words, (index, e) :: errors)

/-- A program: one word per line, or, if any line fails, all the errors and no words (R89, R90). -/
def assemble (m : JmpMnemonics) (opc : Opc) (lines : List (List Char)) :
    Except (List (Nat × AsmError)) (List Word) :=
  match assembleFrom m opc 0 lines with
  | (words, []) => .ok words
  | (_, errors) => .error errors

/-! ## Writing a line and a word -/

/-- The decimal digits of a number, most significant first, given enough fuel. -/
def decimalFrom : Nat → Nat → List Char
  | 0, _ => []
  | fuel + 1, n =>
    if n < 10 then [digitChar n] else decimalFrom fuel (n / 10) ++ [digitChar (n % 10)]

/-- A field as a decimal literal (R87). -/
def decimal (f : Field11) : Token := decimalFrom 4 f.toNat

/-- The mnemonic of an instruction's operation tag. -/
def Mnemonic.ofDecoded : Decoded → Mnemonic
  | .halt => .halt
  | .unrecognized => .halt
  | .A op _ _ => .a op
  | .B op _ _ => .b op
  | .C op _ => .c op
  | .D op _ _ => .d op

/-- The spelling of a mnemonic in an operation table. -/
def spelling (table : List (Token × Mnemonic)) (op : Mnemonic) : Token :=
  match table.find? fun e => decide (e.2 = op) with
  | some e => e.1
  | none => []

/-- The line that writes an instruction, in the form of R88: mnemonic and operands, one space apart. -/
def Instr.line (m : JmpMnemonics) (i : Instr) : List Char :=
  spelling (mnemonicTable m) (Mnemonic.ofDecoded i.decoded) ++
    match i.decoded with
    | .halt => []
    | .unrecognized => []
    | .A _ r f => ' ' :: Reg.name r ++ ' ' :: decimal f
    | .B _ r f => ' ' :: Reg.name r ++ ' ' :: decimal f
    | .C _ f => ' ' :: decimal f
    | .D _ r1 r2 => ' ' :: Reg.name r1 ++ ' ' :: Reg.name r2

/-- The 32-character string of a word: character 0 is bit 31 (R9, R92). -/
def wordString (w : Word) : List Char :=
  (List.range 32).map fun i => if w.getLsbD (31 - i) then '1' else '0'

/-- The value of a bit string, most significant bit first. -/
def bitsValue (bits : List Char) : Nat :=
  bits.foldl (fun acc c => acc * 2 + if c = '1' then 1 else 0) 0

/-- The word of a 32-character string of `0` and `1` (R92). -/
def wordOfString (cs : List Char) : Option Word :=
  if cs.length = 32 ∧ cs.all (fun c => c == '0' || c == '1') then some (BitVec.ofNat 32 (bitsValue cs))
  else none

/-! ## Boot (R251) -/

/-- Why a boot fails before the run. -/
inductive BootError where
  | assembly (errors : List (Nat × AsmError))
  | loading (error : LoadError)
  deriving DecidableEq, Repr

/-- The boot sequence: assemble, load at `base` into a zero-initialised memory, launch at `entry`
(R251, R255). -/
def boot (p : Params) (m : JmpMnemonics) (lines : List (List Char)) (base : Nat := defaultBase)
    (entry : Nat) (initRegs : Regs) (initFlags : Flags) (draws : Nat) : Except BootError State :=
  match assemble m p.opc lines with
  | .error errors => .error (.assembly errors)
  | .ok words =>
    match load p [] words base with
    | .error e => .error (.loading e)
    | .ok mem => .ok (State.launch p initRegs initFlags draws mem entry)

end Sys2Proof.Machine
end

