-- ==== Sys2Proof/Machine/Run.lean ====
section
/-! DEFINITION. Machine/Run.lean: applying `Step` while the engine is running, under a fuel bound that
is no part of the hardware (`40_execution_engine.md` rules R108, R109, R111). -/

namespace Sys2Proof.Machine

/-- The end of a fuel-bounded run: the run ended, or the fuel did. Running out of fuel is never
reported as a halt (R109). -/
inductive RunResult where
  | ended (s : State)
  | outOfFuel (s : State)
  deriving DecidableEq, Repr

/-- Apply `step` at most `fuel` times, until the run state is not `RUNNING` (R108). -/
def runFuel : Nat → State → RunResult
  | 0, s => if s.run = .running then .outOfFuel s else .ended s
  | fuel + 1, s =>
    match step s with
    | .next t => runFuel fuel t
    | .fault _ => .ended s
    | .refused _ => .ended s

end Sys2Proof.Machine
end

