-- ==== Sys2Proof/Safety.lean ====
section
/-! DEFINITION. Safety.lean: the terms claims are stated in: which registers and flags an instruction
may write (R23, R28), the invariant every step keeps, and a run that does not fault. -/

namespace Sys2Proof.Machine

/-- The registers an instruction may write (R23; `MOD` only when its divisor is not 0). -/
def writtenRegs (i : Instr) : List Reg :=
  match i with
  | .parar => []
  | .cargar r _ => [r]
  | .almacenar _ _ => []
  | .lsl r _ => [r]
  | .lsr r _ => [r]
  | .asr r _ => [r]
  | .cargarValor r _ => [r]
  | .rotacionL r _ => [r]
  | .rotacionR r _ => [r]
  | .saltar _ => []
  | .jZero _ => []
  | .jPos _ => []
  | .jNeg _ => []
  | .jPar _ => []
  | .jCarry _ => []
  | .jOvf _ => []
  | .jNovf _ => []
  | .or r1 _ => [r1]
  | .and r1 _ => [r1]
  | .xor r1 _ => [r1]
  | .not r1 _ => [r1]
  | .sumar r1 _ => [r1]
  | .restar r1 _ => [r1]
  | .mult r1 _ => [r1]
  | .div r1 r2 => [r1, r2]
  | .copiar _ r2 => [r2]
  | .comp _ _ => []
  | .intercambiar r1 r2 => [r1, r2]
  | .mod r1 _ => [r1]

/-- Instructions that may write `C`, `Z` and `N` (R28). -/
def writesCZN (i : Instr) : Prop :=
  ∃ r1 r2, i = .sumar r1 r2 ∨ i = .restar r1 r2 ∨ i = .mult r1 r2 ∨ i = .div r1 r2 ∨
    i = .comp r1 r2 ∨ i = .mod r1 r2

/-- Instructions that may write `P` and `V` (R28). -/
def writesPV (i : Instr) : Prop :=
  ∃ r1 r2, i = .sumar r1 r2 ∨ i = .restar r1 r2 ∨ i = .mult r1 r2 ∨ i = .div r1 r2 ∨ i = .mod r1 r2

/-- The condition of a jump and its target (R150 to R158); none for any other instruction. -/
def jumpOf (f : Flags) (i : Instr) : Option (Bool × Field11) :=
  match i.decoded with
  | .C .saltar t => some (true, t)
  | .C .jZero t => some (f.Z, t)
  | .C .jPos t => some (!f.N, t)
  | .C .jNeg t => some (f.N, t)
  | .C .jPar t => some (f.P, t)
  | .C .jCarry t => some (f.C, t)
  | .C .jOvf t => some (f.V, t)
  | .C .jNovf t => some (!f.V, t)
  | .halt => none
  | .unrecognized => none
  | .A _ _ _ => none
  | .B _ _ _ => none
  | .D _ _ _ => none

/-- The instruction at `pc`, if a cycle would execute one (R101). -/
def State.current (s : State) : Option Instr := s.fetch.bind (decode s.params.opc)

/-- A log record is genuine: its address is inside memory, and its word is of the reported kind: a
non-zero word in no table, or a `MOD` (R221, R222). -/
def Report.genuine (p : Params) (r : Report) : Prop :=
  r.pc < p.memSize ∧
  match r.kind with
  | .unrecognizedOpcode => decode p.opc r.word = none
  | .modByZero => ∃ r1 r2, decode p.opc r.word = some (.mod r1 r2)

/-- A terminal run state tells the truth about the state it ended in (R102, R103, R221, R223). -/
def State.runExplained (s : State) : Prop :=
  match s.run with
  | .running => True
  | .halted .haltWord => s.pc < s.params.memSize ∧ s.mem.readWord s.pc = 0#32
  | .halted .endOfMemory => s.params.memSize ≤ s.pc
  | .faulted .divByZero at_ =>
    at_ = s.pc ∧ ∃ r1 r2, s.current = some (.div r1 r2) ∧ s.x.get r2 = 0#32
  | .faulted .memBounds at_ =>
    at_ = s.pc ∧ ∃ r addr, (s.current = some (.cargar r addr) ∨ s.current = some (.almacenar r addr)) ∧
      s.params.memSize ≤ address addr

/-- The invariant: memory in canonical form and inside `MEM_SIZE`, every log record genuine, and a
terminal run state explained. -/
structure State.Inv (s : State) : Prop where
  memWf : s.mem.wf = true
  memInside : s.mem.inside s.params.memSize = true
  logGenuine : ∀ r ∈ s.log, r.genuine s.params
  runExplained : s.runExplained

/-- The registers an instruction reads (R24); which one `NOT` reads is the parameter `NOT_OPERAND`. -/
def readRegs (n : NotOperand) (i : Instr) : List Reg :=
  match i with
  | .parar => []
  | .cargar _ _ => []
  | .almacenar r _ => [r]
  | .lsl r _ => [r]
  | .lsr r _ => [r]
  | .asr r _ => [r]
  | .cargarValor _ _ => []
  | .rotacionL r _ => [r]
  | .rotacionR r _ => [r]
  | .saltar _ => []
  | .jZero _ => []
  | .jPos _ => []
  | .jNeg _ => []
  | .jPar _ => []
  | .jCarry _ => []
  | .jOvf _ => []
  | .jNovf _ => []
  | .or r1 r2 => [r1, r2]
  | .and r1 r2 => [r1, r2]
  | .xor r1 r2 => [r1, r2]
  | .not r1 r2 => [notSource n r1 r2]
  | .sumar r1 r2 => [r1, r2]
  | .restar r1 r2 => [r1, r2]
  | .mult r1 r2 => [r1, r2]
  | .div r1 r2 => [r1, r2]
  | .copiar r1 _ => [r1]
  | .comp r1 r2 => [r1, r2]
  | .intercambiar r1 r2 => [r1, r2]
  | .mod r1 r2 => [r1, r2]

/-- The store a cycle from `s` makes, if it makes one: the word address and the word (R121). -/
def State.storeMade (s : State) : Option (Nat × Word) :=
  match s.current with
  | some (.almacenar r addr) =>
    if address addr < s.params.memSize then some (address addr, s.x.get r) else none
  | _ => none

/-- The state after `n` steps, if all of them give a next state. -/
def stateAfter : Nat → State → Option State
  | 0, s => some s
  | n + 1, s =>
    match step s with
    | .next t => stateAfter n t
    | .fault _ => none
    | .refused _ => none

/-- The word of the latest store to word address `a` in the first `n` steps from `s`, if there is one
(R60). -/
def latestStore (a : Nat) : Nat → State → Option Word
  | 0, _ => none
  | n + 1, s =>
    match step s with
    | .next t =>
      match latestStore a n t with
      | some v => some v
      | none =>
        match s.storeMade with
        | some (b, v) => if b = a then some v else none
        | none => none
    | .fault _ => none
    | .refused _ => none

/-- The run has ended in `FAULTED`. -/
def State.hasFaulted (s : State) : Prop := ∃ reason pc, s.run = .faulted reason pc

/-- A safe run of `fuel` steps: it does not end in `FAULTED`. -/
def SafeFor (fuel : Nat) (s : State) : Prop :=
  match runFuel fuel s with
  | .ended t => ¬ t.hasFaulted
  | .outOfFuel _ => True

end Sys2Proof.Machine
end

