-- ==== Sys2Proof/Certificates/Slice0/Obligations.lean ====
section
/-! DEFINITION. Certificates/Slice0/Obligations.lean: what the model claims of the machine. -/

namespace Sys2Proof.Claims

open Sys2Proof.Machine

/-! ## Words of the claims -/

/-- The outcome is a next state with the given property. -/
def Answers (o : Host.Outcome State Fault Refusal) (P : State → Prop) : Prop :=
  ∃ t, o = .next t ∧ P t

/-- Every byte of memory reads as before. -/
def MemoryKept (s t : State) : Prop := ∀ a, t.mem.readByte a = s.mem.readByte a

/-- The parameters, the run state and the log are as before. -/
def ControlKept (s t : State) : Prop := t.params = s.params ∧ t.run = s.run ∧ t.log = s.log

/-- Every register but those listed is as before. -/
def RegsKeptBut (rs : List Reg) (s t : State) : Prop := ∀ r, r ∉ rs → t.x.get r = s.x.get r

/-- The whole effect is that one register holds `v` and `pc` moves on: no other register, no flag, no
byte of memory, no draw and no control state changes. -/
def PutsOneRegister (s t : State) (r : Reg) (v : Word) : Prop :=
  t.x.get r = v ∧ RegsKeptBut [r] s t ∧ t.flags = s.flags ∧ t.pc = s.pc + 1 ∧ MemoryKept s t ∧
    ControlKept s t ∧ t.draws = s.draws

/-- The operand value `x[r]` as an unbounded integer (R10). -/
def val (s : State) (r : Reg) : Int := ((s.x.get r).toNat : Int)

/-- `bit31(u)` of an integer (R10). -/
def top (u : Int) : Prop := 2 ^ 31 ≤ u % 2 ^ 32

/-- The overflow heuristic: equal operand signs, and a result sign that differs (R171). -/
def Heuristic (a b u : Int) : Prop := (top a ↔ top b) ∧ ¬ (top u ↔ top a)

/-- `Z` as `ZERO_BASIS` says, and `N` and `P`, all from the unmasked result `u` (R171). -/
def ZNPFrom (basis : ZeroBasis) (u : Int) (f : Flags) : Prop :=
  (f.Z = true ↔ match basis with | .unmasked => u = 0 | .masked => u % 2 ^ 32 = 0) ∧
    (f.N = true ↔ u < 0) ∧ (f.P = true ↔ u % 2 = 0)

end Sys2Proof.Claims

open Sys2Proof Sys2Proof.Machine Sys2Proof.Claims

/-! ## Launch, reset and the invariant -/

/-- R41: the state that `run(mem, ENTRY)` creates, for every `INIT_REGS` and `INIT_FLAGS`; a fresh
memory is all zero. -/
def Obligations.LaunchCreatesTheInitialState : Prop :=
  ∀ (p : Params) (initRegs : Regs) (initFlags : Flags) (draws : Nat) (mem : Memory) (entry : Nat),
    (State.launch p initRegs initFlags draws mem entry).mem = mem ∧
    (State.launch p initRegs initFlags draws mem entry).x = initRegs ∧
    (State.launch p initRegs initFlags draws mem entry).flags = initFlags ∧
    (State.launch p initRegs initFlags draws mem entry).pc = entry ∧
    (State.launch p initRegs initFlags draws mem entry).run = .running ∧
    (State.launch p initRegs initFlags draws mem entry).log = [] ∧
    ∀ a, Memory.readWord [] a = 0#32

/-- `State.reset` is a launch under the reference parameters on a fresh memory. That its registers and
flags are 0 and that it enters at 0 is the model's choice (log entries 2, 3, 4), not the spec's. -/
def Obligations.ResetIsALaunchOnFreshMemory : Prop :=
  State.reset = State.launch Params.reference (Regs.build fun _ => 0#32)
    ⟨false, false, false, false, false⟩ 0 [] 0 ∧
  (∀ a, State.reset.mem.readWord a = 0#32) ∧ Params.reference.memSize = 2048

/-- The invariant holds at reset. -/
def Obligations.ResetSatisfiesTheInvariant : Prop := State.reset.Inv

/-- Every step keeps the invariant: memory stays canonical and inside `MEM_SIZE`, every log record is
genuine, and a run that ends says truly why it ended. -/
def Obligations.EveryStepKeepsTheInvariant : Prop :=
  ∀ s t : State, s.Inv → step s = .next t → t.Inv

/-- The parameters are fixed while the machine runs (R8). -/
def Obligations.NoStepChangesTheParameters : Prop :=
  ∀ s t : State, step s = .next t → t.params = s.params

/-! ## Encoding -/

/-- Words of every format, as the spec writes them out, decode to the instructions they stand for
(`95_test_vectors.md` sections 1 and 2), and an unlisted word to none. -/
def Obligations.SpecWordsDecode : Prop :=
  decode opcRef 0x00000000 = some .parar ∧
  decode opcRef 0x00004003 = some (.cargar .R0 3) ∧
  decode opcRef 0x0000BFFF = some (.almacenar .R7 2047) ∧
  decode opcRef 0x0001AFFF = some (.cargarValor .R5 2047) ∧
  decode opcRef 0x00027FFF = some (.jNovf 2047) ∧
  decode opcRef 0x00028101 = some (.sumar .R0 .R1) ∧
  decode opcRef 0x000282FF = some (.mod .R7 .R7) ∧
  decode opcRef 0x80004000 = none

/-- Under every legal assignment, decoding the word of a well-formed instruction gives the instruction
back with every operand (R83, R89). -/
def Obligations.DecodeOfEncodeIsTheInstruction : Prop :=
  ∀ (opc : Opc) (i : Instr), opc.legal = true → i.wellFormed opc = true →
    ∃ w, encode opc i = some w ∧ decode opc w = some i

/-- Under every legal assignment a word that decodes is the one word of its instruction, so no two
words decode to one instruction (R76, R80). -/
def Obligations.EncodeOfDecodeIsTheWord : Prop :=
  ∀ (opc : Opc) (w : Word) (i : Instr), opc.legal = true → decode opc w = some i →
    encode opc i = some w

/-- R84: under a legal assignment a non-zero word matches the rows of at most one table, at most one
row of it, and decodes to the row it matches or to `unrecognized`, whatever the order the tables are
tried in; under some assignment that is not legal the order matters. -/
def Obligations.DecodingIsAnUnorderedRowMatch : Prop :=
  (∀ (opc : Opc) (w : Word), opc.legal = true → w ≠ 0#32 →
    (∀ op, (fieldOpAB w, OpAB.a op) ∈ opc.tabAB → classify opc w = .A op (fieldR w) (fieldLow w)) ∧
    (∀ op, (fieldOpAB w, OpAB.b op) ∈ opc.tabAB → classify opc w = .B op (fieldR w) (fieldLow w)) ∧
    (∀ op, (fieldOpC w, op) ∈ opc.tabC → classify opc w = .C op (fieldLow w)) ∧
    (∀ op, (fieldOpD w, op) ∈ opc.tabD → classify opc w = .D op (fieldR1 w) (fieldR2 w)) ∧
    ((∀ op, (fieldOpAB w, op) ∉ opc.tabAB) → (∀ op, (fieldOpC w, op) ∉ opc.tabC) →
      (∀ op, (fieldOpD w, op) ∉ opc.tabD) → classify opc w = .unrecognized)) ∧
  ∃ (opc : Opc) (w : Word) (op : OpC), opc.legal = false ∧ w ≠ 0#32 ∧ (fieldOpC w, op) ∈ opc.tabC ∧
    classify opc w ≠ .C op (fieldLow w)

/-- R85: the word classes under the reference assignment, over all 32-bit words. -/
def Obligations.WordClassesOfTheReferenceAssignment : Prop :=
  ∀ w : Word,
    (w.toNat = 0 → classify opcRef w = .halt) ∧
    (1 ≤ w.toNat → w.toNat ≤ 0x3FFF → classify opcRef w = .unrecognized ∧
      (fieldOpAB w).toNat = 0 ∧ (fieldOpC w).toNat ≤ 7 ∧ (fieldOpD w).toNat ≤ 0xFF) ∧
    (0x4000 ≤ w.toNat → w.toNat ≤ 0x23FFF → 1 ≤ (fieldOpAB w).toNat ∧ (fieldOpAB w).toNat ≤ 8 ∧
      ((∃ op, (fieldOpAB w, OpAB.a op) ∈ opcRef.tabAB ∧
          classify opcRef w = .A op (fieldR w) (fieldLow w)) ∨
        ∃ op, (fieldOpAB w, OpAB.b op) ∈ opcRef.tabAB ∧
          classify opcRef w = .B op (fieldR w) (fieldLow w))) ∧
    (0x24000 ≤ w.toNat → w.toNat ≤ 0x27FFF → 0x48 ≤ (fieldOpC w).toNat ∧ (fieldOpC w).toNat ≤ 0x4F ∧
      ∃ op, (fieldOpC w, op) ∈ opcRef.tabC ∧ classify opcRef w = .C op (fieldLow w)) ∧
    (0x28000 ≤ w.toNat → w.toNat ≤ 0x282FF →
      0xA00 ≤ (fieldOpD w).toNat ∧ (fieldOpD w).toNat ≤ 0xA0B ∧
      ∃ op, (fieldOpD w, op) ∈ opcRef.tabD ∧ classify opcRef w = .D op (fieldR1 w) (fieldR2 w)) ∧
    (0x28300 ≤ w.toNat → classify opcRef w = .unrecognized)

/-! ## The engine -/

/-- A step of a running engine whose `pc` is inside memory runs the decoded instruction (R101). -/
def Obligations.StepRunsTheDecodedInstruction : Prop :=
  ∀ (s : State) (i : Instr), s.run = .running → s.pc < s.params.memSize →
    decode s.params.opc (s.mem.readWord s.pc) = some i → step s = exec i s

/-- R102: a cycle that starts with `pc >= MEM_SIZE` halts with `END_OF_MEMORY` and changes nothing else,
an `ENTRY` past the end of memory included. -/
def Obligations.EndOfMemoryHaltsWithoutAFetch : Prop :=
  (∀ s : State, s.run = .running → s.params.memSize ≤ s.pc →
    step s = .next { s with run := .halted .endOfMemory }) ∧
  ∀ (p : Params) (x : Regs) (f : Flags) (d : Nat) (m : Memory) (entry : Nat), p.memSize ≤ entry →
    Answers (step (State.launch p x f d m entry)) fun t =>
      t.run = .halted .endOfMemory ∧ t.pc = entry ∧ t.log = [] ∧ t.x = x ∧ t.flags = f ∧ t.mem = m

/-- R103: `PARAR`, and so any fetched word 0, halts with `HALT_WORD` and changes nothing else, `pc`
included; the halted state is terminal. -/
def Obligations.HaltWordHalts : Prop :=
  ∀ s : State,
    exec .parar s = .next { s with run := .halted .haltWord } ∧
    (s.run = .running → s.pc < s.params.memSize → s.mem.readWord s.pc = 0#32 →
      step s = .next { s with run := .halted .haltWord }) ∧
    step { s with run := .halted .haltWord } = .fault (.halted .haltWord)

/-- R105: an unrecognized word is reported with its address and the whole word, and otherwise is a
no-op that moves `pc` on. -/
def Obligations.UnrecognizedWordIsAReportedNoOp : Prop :=
  ∀ s : State, s.run = .running → s.pc < s.params.memSize →
    classify s.params.opc (s.mem.readWord s.pc) = .unrecognized →
    step s = .next { s with
      log := s.log ++ [⟨.unrecognizedOpcode, s.pc, s.mem.readWord s.pc⟩], pc := s.pc + 1 }

/-- R32: a state steps exactly when it is `RUNNING`; on a terminal state `step` stops by name (the
names: log entry 8). No running state is left without a next state: every instruction answers one. -/
def Obligations.ExactlyTheRunningStatesStep : Prop :=
  ∀ s : State,
    ((∃ t, step s = .next t) ↔ s.run = .running) ∧
    (∀ reason, s.run = .halted reason → step s = .fault (.halted reason)) ∧
    (∀ reason pc, s.run = .faulted reason pc → step s = .fault (.faulted reason pc))

/-- R26: after a cycle that does not end the run, `pc` is the target of a taken jump, and `pc + 1`
otherwise; reaching `MEM_SIZE` it halts the next cycle. -/
def Obligations.PcAfterACycle : Prop :=
  ∀ s t : State, step s = .next t → t.run = .running →
    (t.pc = match s.current.bind (jumpOf s.flags) with
      | some (true, target) => target.toNat
      | _ => s.pc + 1) ∧
    (t.params.memSize ≤ t.pc → step t = .next { t with run := .halted .endOfMemory })

/-- R23: a step changes a register only as an instruction listed as writing it; `MOD` only with a
divisor that is not 0. -/
def Obligations.OnlyListedInstructionsWriteRegisters : Prop :=
  ∀ (s t : State) (r : Reg), step s = .next t → t.x.get r ≠ s.x.get r →
    ∃ i, s.current = some i ∧ r ∈ writtenRegs i ∧
      ∀ r1 r2, i = .mod r1 r2 → s.x.get r2 ≠ 0#32

/-- R28: a step changes a flag only as an instruction listed as writing it; `MOD` only with a divisor
that is not 0. -/
def Obligations.OnlyListedInstructionsWriteFlags : Prop :=
  ∀ s t : State, step s = .next t →
    (t.flags.C ≠ s.flags.C ∨ t.flags.Z ≠ s.flags.Z ∨ t.flags.N ≠ s.flags.N →
      ∃ i, s.current = some i ∧ writesCZN i ∧ ∀ r1 r2, i = .mod r1 r2 → s.x.get r2 ≠ 0#32) ∧
    (t.flags.P ≠ s.flags.P ∨ t.flags.V ≠ s.flags.V →
      ∃ i, s.current = some i ∧ writesPV i ∧ ∀ r1 r2, i = .mod r1 r2 → s.x.get r2 ≠ 0#32)

/-- A step changes a word of memory only as an `ALMACENAR` to that address, inside memory, which leaves
its register there (R57, R121). -/
def Obligations.OnlyAlmacenarWritesMemory : Prop :=
  ∀ (s t : State) (a : Nat), s.mem.wf = true → step s = .next t →
    t.mem.readWord a ≠ s.mem.readWord a →
    ∃ r addr, s.current = some (.almacenar r addr) ∧ a = address addr ∧ a < s.params.memSize ∧
      t.mem.readWord a = s.x.get r

/-- The log is append-only, at most one record a cycle, with the address and word of the instruction
(R34, R222). -/
def Obligations.TheLogOnlyGrows : Prop :=
  ∀ s t : State, step s = .next t →
    t.log = s.log ∨ ∃ kind, t.log = s.log ++ [⟨kind, s.pc, s.mem.readWord s.pc⟩]

/-- R223: when a step ends in `FAULTED`, only the run state has changed, it records the address of the
faulting instruction, and no step exists from it. -/
def Obligations.FaultsArePrecise : Prop :=
  ∀ (s t : State) (reason : FaultReason) (pc : Nat), step s = .next t → t.run = .faulted reason pc →
    t = { s with run := .faulted reason s.pc } ∧ pc = s.pc ∧
      step t = .fault (.faulted reason s.pc)

/-- R221: each run-time condition arises exactly when the list says, is recorded as it says, and is
followed as it says; nothing else ends a run or makes a report. -/
def Obligations.TheRunTimeConditionsAreComplete : Prop :=
  ∀ s t : State, step s = .next t →
    (t.run = .halted .endOfMemory ↔ s.params.memSize ≤ s.pc) ∧
    (t.run = .halted .haltWord ↔ s.pc < s.params.memSize ∧ s.mem.readWord s.pc = 0#32) ∧
    (t.run = .faulted .divByZero s.pc ↔
      ∃ r1 r2, s.current = some (.div r1 r2) ∧ s.x.get r2 = 0#32) ∧
    (t.run = .faulted .memBounds s.pc ↔
      ∃ r addr, (s.current = some (.cargar r addr) ∨ s.current = some (.almacenar r addr)) ∧
        s.params.memSize ≤ address addr) ∧
    (∀ reason pc, t.run = .faulted reason pc → pc = s.pc) ∧
    (s.pc < s.params.memSize → s.current = none →
      t.log = s.log ++ [⟨.unrecognizedOpcode, s.pc, s.mem.readWord s.pc⟩] ∧ t.pc = s.pc + 1 ∧
        t.run = .running) ∧
    (∀ r1 r2, s.current = some (.mod r1 r2) → s.x.get r2 = 0#32 →
      t.log = s.log ++ [⟨.modByZero, s.pc, s.mem.readWord s.pc⟩] ∧ t.pc = s.pc + 1 ∧
        t.run = .running) ∧
    (t.log ≠ s.log → (s.pc < s.params.memSize ∧ s.current = none) ∨
      ∃ r1 r2, s.current = some (.mod r1 r2) ∧ s.x.get r2 = 0#32)

/-- A store to the next instruction is seen by its fetch in the very next cycle, and a stored 0 halts
there (R62, R64). -/
def Obligations.AStoreIsSeenByTheNextFetch : Prop :=
  ∀ (s : State) (r : Reg) (addr : Field11), s.mem.wf = true → s.run = .running →
    s.current = some (.almacenar r addr) → address addr = s.pc + 1 →
    address addr < s.params.memSize →
    Answers (step s) fun t =>
      t.fetch = some (s.x.get r) ∧
      (s.x.get r = 0#32 → step t = .next { t with run := .halted .haltWord }) ∧
      (∀ i, decode s.params.opc (s.x.get r) = some i → step t = exec i t)

/-- R60: along any run, a word of memory is the word of the latest store to it, or, if there was none,
the word it held when the run began. -/
def Obligations.MemoryIsTheLatestStore : Prop :=
  ∀ (n : Nat) (s t : State) (a : Nat), s.mem.wf = true → stateAfter n s = some t →
    t.mem.readWord a = (latestStore a n s).getD (s.mem.readWord a)

/-- `withFetchWord` (the model's own interface, log entry 13): the engine is running, at its old `pc`, or
at 0 if that lies at or past the end of memory; the word is the next one fetched and the next step runs
what it decodes to; every other word and the parameters, registers, flags, log and count of draws are
as before. -/
def Obligations.APlacedWordIsTheNextToRun : Prop :=
  ∀ (s : State) (w : Word), s.mem.wf = true →
    (s.withFetchWord 32 w.toNat).run = .running ∧
    (s.pc < s.params.memSize → (s.withFetchWord 32 w.toNat).pc = s.pc) ∧
    (s.params.memSize ≤ s.pc → (s.withFetchWord 32 w.toNat).pc = 0) ∧
    (1 ≤ s.params.memSize → (s.withFetchWord 32 w.toNat).fetch = some w ∧
      ∀ i, decode s.params.opc w = some i →
        step (s.withFetchWord 32 w.toNat) = exec i (s.withFetchWord 32 w.toNat)) ∧
    (∀ a, a ≠ (s.withFetchWord 32 w.toNat).pc →
      (s.withFetchWord 32 w.toNat).mem.readWord a = s.mem.readWord a) ∧
    (s.withFetchWord 32 w.toNat).params = s.params ∧ (s.withFetchWord 32 w.toNat).x = s.x ∧
    (s.withFetchWord 32 w.toNat).flags = s.flags ∧ (s.withFetchWord 32 w.toNat).log = s.log ∧
    (s.withFetchWord 32 w.toNat).draws = s.draws

/-- A fuel-bounded run reports the end of a run only of a run that has ended, and running out of fuel
only of one that has not; and more fuel changes no ended run (R108, R109, R232). -/
def Obligations.RunningOutOfFuelIsNoHalt : Prop :=
  ∀ (n : Nat) (s t : State),
    (runFuel n s = .outOfFuel t → t.run = .running ∧ stateAfter n s = some t) ∧
    (runFuel n s = .ended t → t.run ≠ .running ∧ ∀ k, runFuel (n + k) s = .ended t)

/-- The dump accessor shows the registers, the flags packed as the spec orders them, `pc`, the run state,
the log and the requested window of memory (R30, R110). That a window past the end of memory shows
words there too is the model's choice (log entry 17). -/
def Obligations.DumpShowsTheState : Prop :=
  ∀ (s : State) (start n : Nat),
    (s.dump start n).x = s.x ∧ (s.dump start n).pc = s.pc ∧ (s.dump start n).run = s.run ∧
    (s.dump start n).log = s.log ∧
    (s.dump start n).flags.getLsbD 0 = s.flags.C ∧ (s.dump start n).flags.getLsbD 1 = s.flags.Z ∧
    (s.dump start n).flags.getLsbD 2 = s.flags.N ∧ (s.dump start n).flags.getLsbD 3 = s.flags.P ∧
    (s.dump start n).flags.getLsbD 4 = s.flags.V ∧
    (s.dump start n).window.length = n ∧
    ∀ i, i < n → (s.dump start n).window[i]? = some (s.mem.readWord (start + i))

/-- The draws reach only the flags after `DIV` and `MOD`: two states that differ in nothing but the
count of draws step to states that differ in nothing else, and, where the instruction is no `DIV` and
no `MOD`, not in the flags either (R108, R173). -/
def Obligations.DrawsReachOnlyTheFlagsOfDivAndMod : Prop :=
  ∀ (s t : State) (d : Nat), step s = .next t →
    Answers (step { s with draws := d }) fun u =>
      u.x = t.x ∧ u.pc = t.pc ∧ u.mem = t.mem ∧ u.run = t.run ∧ u.log = t.log ∧
      u.params = t.params ∧
      ((∀ r1 r2, s.current ≠ some (.div r1 r2) ∧ s.current ≠ some (.mod r1 r2)) → u.flags = t.flags)

/-- R24: an instruction reads no register but those listed: on two register files that agree on them it
completes with the same flags, `pc`, memory, run state and log, and each register either gets the same
value from both or keeps its own. -/
def Obligations.InstructionsReadOnlyListedRegisters : Prop :=
  ∀ (i : Instr) (s : State) (y : Regs),
    (∀ r, r ∈ readRegs s.params.notOperand i → y.get r = s.x.get r) →
    Answers (exec i s) fun t =>
      Answers (exec i { s with x := y }) fun u =>
        u.flags = t.flags ∧ u.pc = t.pc ∧ u.mem = t.mem ∧ u.run = t.run ∧ u.log = t.log ∧
        u.draws = t.draws ∧
        ∀ r, u.x.get r = t.x.get r ∨ (u.x.get r = y.get r ∧ t.x.get r = s.x.get r)

/-! ## Format A -/

/-- R120: `CARGAR` loads the whole word and changes nothing else; at an address past memory it faults
and writes nothing. -/
def Obligations.CargarLoadsAWord : Prop :=
  ∀ (s : State) (r : Reg) (addr : Field11),
    (addr.toNat < s.params.memSize →
      Answers (exec (.cargar r addr) s) fun t => PutsOneRegister s t r (s.mem.readWord addr.toNat)) ∧
    (s.params.memSize ≤ addr.toNat →
      exec (.cargar r addr) s = .next { s with run := .faulted .memBounds s.pc })

/-- R121: `ALMACENAR` stores the whole word at the address its meaning computes, every byte outside
that word reads as before, and nothing else changes; at an address past memory it faults and writes
nothing. -/
def Obligations.AlmacenarStoresAWord : Prop :=
  ∀ (s : State) (r : Reg) (addr : Field11), s.mem.wf = true →
    (addr.toNat < s.params.memSize →
      Answers (exec (.almacenar r addr) s) fun t =>
        t.mem.readWord (address addr) = s.x.get r ∧ address addr = addr.toNat ∧
        (∀ b, b < 4 * address addr ∨ 4 * address addr + 4 ≤ b →
          t.mem.readByte b = s.mem.readByte b) ∧
        RegsKeptBut [] s t ∧ t.flags = s.flags ∧ t.pc = s.pc + 1 ∧ ControlKept s t ∧
        t.draws = s.draws) ∧
    (s.params.memSize ≤ addr.toNat →
      exec (.almacenar r addr) s = .next { s with run := .faulted .memBounds s.pc })

/-! ## Format B -/

/-- R131, R132, R133: the shifts, for every amount 0 to 2047, change one register and no flag. -/
def Obligations.ShiftsComputeTheirFormulas : Prop :=
  ∀ (s : State) (r : Reg) (k : Field11),
    (Answers (exec (.lsl r k) s) fun t => ∃ v : Word, PutsOneRegister s t r v ∧
      v.toNat = (s.x.get r).toNat * 2 ^ k.toNat % 2 ^ 32 ∧ (32 ≤ k.toNat → v = 0#32)) ∧
    (Answers (exec (.lsr r k) s) fun t => ∃ v : Word, PutsOneRegister s t r v ∧
      v.toNat = (s.x.get r).toNat / 2 ^ k.toNat ∧ (32 ≤ k.toNat → v = 0#32)) ∧
    (Answers (exec (.asr r k) s) fun t => ∃ v : Word, PutsOneRegister s t r v ∧
      (v.toNat : Int) = (s.x.get r).toInt / 2 ^ k.toNat % 2 ^ 32 ∧
      (31 ≤ k.toNat → v = if (s.x.get r).msb then 0xFFFFFFFF#32 else 0#32))

/-- R134: `CARGARVALOR` writes the zero-extended immediate, without reading the register. -/
def Obligations.CargarValorLoadsTheImmediate : Prop :=
  ∀ (s : State) (r : Reg) (k : Field11),
    Answers (exec (.cargarValor r k) s) fun t => ∃ v : Word, PutsOneRegister s t r v ∧
      v.toNat = k.toNat ∧ v.toNat ≤ 2047

/-- R135, R136: the rotations, for every amount 0 to 2047, change one register and no flag; bit `j`
moves to bit `j ± k` modulo 32, and the two formulas of the spec give that word. -/
def Obligations.RotationsMoveEveryBit : Prop :=
  ∀ (s : State) (r : Reg) (k : Field11),
    (Answers (exec (.rotacionL r k) s) fun t => ∃ v : Word, PutsOneRegister s t r v ∧
      v.toNat = ((s.x.get r).toNat * 2 ^ (k.toNat % 32) % 2 ^ 32) |||
        ((s.x.get r).toNat / 2 ^ (32 - k.toNat % 32)) ∧
      ∀ j, j < 32 → v.getLsbD ((j + k.toNat) % 32) = (s.x.get r).getLsbD j) ∧
    (Answers (exec (.rotacionR r k) s) fun t => ∃ v : Word, PutsOneRegister s t r v ∧
      v.toNat = ((s.x.get r).toNat / 2 ^ (k.toNat % 32)) |||
        ((s.x.get r).toNat * 2 ^ (32 - k.toNat % 32) % 2 ^ 32) ∧
      ∀ j, j < 32 → v.getLsbD j = (s.x.get r).getLsbD ((j + k.toNat) % 32))

/-- `ROTACIONR r, k` does what `ROTACIONL r, (32 - k mod 32) mod 32` does, and rotating left and then
right by one amount gives the word back (R136). -/
def Obligations.RotationsUndoEachOther : Prop :=
  ∀ (s : State) (r : Reg) (k k' : Field11) (v : Word), k'.toNat = (32 - k.toNat % 32) % 32 →
    exec (.rotacionR r k) s = exec (.rotacionL r k') s ∧
    rotrWord (rotlWord v k.toNat) k.toNat = v ∧ rotlWord (rotrWord v k.toNat) k.toNat = v

/-- The spec's formulas are the bit-vector shifts and rotations (R131 to R136). -/
def Obligations.ShiftFormulasAreBitVectorShifts : Prop :=
  ∀ (v : Word) (k : Nat),
    lslWord v k = v <<< k ∧ lsrWord v k = v >>> k ∧ asrWord v k = v.sshiftRight k ∧
    rotlWord v k = v.rotateLeft k ∧ rotrWord v k = v.rotateRight k

/-! ## Format C -/

/-- R151: `SALTAR` sets `pc` to its target and changes nothing else. -/
def Obligations.SaltarJumps : Prop :=
  ∀ (s : State) (t : Field11), exec (.saltar t) s = .next { s with pc := t.toNat }

/-- R152 to R158: each conditional jump tests its flag, goes to its target or to `pc + 1`, and changes
nothing else. -/
def Obligations.ConditionalJumpsTestTheirFlag : Prop :=
  ∀ (s : State) (t : Field11),
    exec (.jZero t) s = .next { s with pc := if s.flags.Z = true then t.toNat else s.pc + 1 } ∧
    exec (.jPos t) s = .next { s with pc := if s.flags.N = false then t.toNat else s.pc + 1 } ∧
    exec (.jNeg t) s = .next { s with pc := if s.flags.N = true then t.toNat else s.pc + 1 } ∧
    exec (.jPar t) s = .next { s with pc := if s.flags.P = true then t.toNat else s.pc + 1 } ∧
    exec (.jCarry t) s = .next { s with pc := if s.flags.C = true then t.toNat else s.pc + 1 } ∧
    exec (.jOvf t) s = .next { s with pc := if s.flags.V = true then t.toNat else s.pc + 1 } ∧
    exec (.jNovf t) s = .next { s with pc := if s.flags.V = false then t.toNat else s.pc + 1 }

/-- A jump's target is not checked: a taken jump past memory completes, and the next cycle halts with
`END_OF_MEMORY` there (R150, R102). -/
def Obligations.AJumpPastMemoryHaltsTheNextCycle : Prop :=
  ∀ (s : State) (i : Instr) (target : Field11), s.run = .running → s.current = some i →
    jumpOf s.flags i = some (true, target) → s.params.memSize ≤ target.toNat →
    Answers (step s) fun t => t = { s with pc := target.toNat } ∧
      step t = .next { s with pc := target.toNat, run := .halted .endOfMemory }

/-! ## Format D -/

/-- R175, R176, R177: the bitwise operations write `r1` and no flag. -/
def Obligations.BitwiseOperationsWriteR1 : Prop :=
  ∀ (s : State) (r1 r2 : Reg),
    (Answers (exec (.or r1 r2) s) fun t => ∃ v : Word, PutsOneRegister s t r1 v ∧
      ∀ j, v.getLsbD j = ((s.x.get r1).getLsbD j || (s.x.get r2).getLsbD j)) ∧
    (Answers (exec (.and r1 r2) s) fun t => ∃ v : Word, PutsOneRegister s t r1 v ∧
      ∀ j, v.getLsbD j = ((s.x.get r1).getLsbD j && (s.x.get r2).getLsbD j)) ∧
    (Answers (exec (.xor r1 r2) s) fun t => ∃ v : Word, PutsOneRegister s t r1 v ∧
      ∀ j, v.getLsbD j = ((s.x.get r1).getLsbD j ^^ (s.x.get r2).getLsbD j))

/-- R178: `NOT` writes to `r1` the complement, `0xFFFFFFFF - src`, of the register that `NOT_OPERAND`
names, and no flag. -/
def Obligations.NotComplementsTheNamedOperand : Prop :=
  ∀ (s : State) (r1 r2 : Reg),
    Answers (exec (.not r1 r2) s) fun t => ∃ v : Word, PutsOneRegister s t r1 v ∧
      (s.params.notOperand = .r1 → v.toNat = 0xFFFFFFFF - (s.x.get r1).toNat) ∧
      (s.params.notOperand = .r2 → v.toNat = 0xFFFFFFFF - (s.x.get r2).toNat) ∧
      ∀ j, j < 32 → v.getLsbD j = !(s.x.get (notSource s.params.notOperand r1 r2)).getLsbD j

/-- R179: `SUMAR` writes the masked sum to `r1` and all five flags from the unmasked sum; overflow is
the carry or the heuristic. -/
def Obligations.SumarAddsAndSetsEveryFlag : Prop :=
  ∀ (s : State) (r1 r2 : Reg),
    Answers (exec (.sumar r1 r2) s) fun t =>
      val t r1 = (val s r1 + val s r2) % 2 ^ 32 ∧
      (t.flags.C = true ↔ val s r1 + val s r2 > 0xFFFFFFFF) ∧
      (t.flags.V = true ↔ val s r1 + val s r2 > 0xFFFFFFFF ∨
        Heuristic (val s r1) (val s r2) (val s r1 + val s r2)) ∧
      ZNPFrom s.params.zeroBasis (val s r1 + val s r2) t.flags ∧
      RegsKeptBut [r1] s t ∧ t.pc = s.pc + 1 ∧ MemoryKept s t ∧ ControlKept s t ∧
      t.draws = s.draws

/-- R180: `RESTAR` writes the masked difference to `r1` and all five flags from the unmasked
difference; carry is the borrow and overflow the heuristic alone. -/
def Obligations.RestarSubtractsAndSetsEveryFlag : Prop :=
  ∀ (s : State) (r1 r2 : Reg),
    Answers (exec (.restar r1 r2) s) fun t =>
      val t r1 = (val s r1 - val s r2) % 2 ^ 32 ∧
      (t.flags.C = true ↔ val s r1 < val s r2) ∧
      (t.flags.V = true ↔ Heuristic (val s r1) (val s r2) (val s r1 - val s r2)) ∧
      ZNPFrom s.params.zeroBasis (val s r1 - val s r2) t.flags ∧
      RegsKeptBut [r1] s t ∧ t.pc = s.pc + 1 ∧ MemoryKept s t ∧ ControlKept s t ∧
      t.draws = s.draws

/-- R181: `MULT` writes the low 32 bits of the unsigned product to `r1` and all five flags from the
whole product; overflow is the heuristic alone. -/
def Obligations.MultMultipliesAndSetsEveryFlag : Prop :=
  ∀ (s : State) (r1 r2 : Reg),
    Answers (exec (.mult r1 r2) s) fun t =>
      val t r1 = (val s r1 * val s r2) % 2 ^ 32 ∧
      (t.flags.C = true ↔ val s r1 * val s r2 > 0xFFFFFFFF) ∧
      (t.flags.V = true ↔ Heuristic (val s r1) (val s r2) (val s r1 * val s r2)) ∧
      ZNPFrom s.params.zeroBasis (val s r1 * val s r2) t.flags ∧
      RegsKeptBut [r1] s t ∧ t.pc = s.pc + 1 ∧ MemoryKept s t ∧ ControlKept s t ∧
      t.draws = s.draws

/-- R182: `DIV` by a non-zero divisor writes the quotient to `r1` and then the remainder to `r2`, which
wins when they are one register, and leaves a free flag vector, the next draw (log entry 6); by 0 it
faults and writes nothing. -/
def Obligations.DivDividesOrFaults : Prop :=
  ∀ (s : State) (r1 r2 : Reg),
    (s.x.get r2 ≠ 0#32 → Answers (exec (.div r1 r2) s) fun t =>
      (r1 ≠ r2 → val t r1 = val s r1 / val s r2) ∧ val t r2 = val s r1 % val s r2 ∧
      t.flags = Config.divModFlags s.draws .div (s.x.get r1) (s.x.get r2) s.flags ∧
      t.draws = s.draws + 1 ∧
      RegsKeptBut [r1, r2] s t ∧ t.pc = s.pc + 1 ∧ MemoryKept s t ∧ ControlKept s t) ∧
    (s.x.get r2 = 0#32 → exec (.div r1 r2) s = .next { s with run := .faulted .divByZero s.pc })

/-- R186: `MOD` by a non-zero divisor writes the remainder to `r1` and leaves a free flag vector, the
next draw (log entry 6); by 0 it adds one report, with the fetched word, and changes nothing but the log
and `pc`. -/
def Obligations.ModReducesOrReports : Prop :=
  ∀ (s : State) (r1 r2 : Reg),
    (s.x.get r2 ≠ 0#32 → Answers (exec (.mod r1 r2) s) fun t =>
      val t r1 = val s r1 % val s r2 ∧
      t.flags = Config.divModFlags s.draws .mod (s.x.get r1) (s.x.get r2) s.flags ∧
      t.draws = s.draws + 1 ∧
      RegsKeptBut [r1] s t ∧ t.pc = s.pc + 1 ∧ MemoryKept s t ∧ ControlKept s t) ∧
    (s.x.get r2 = 0#32 → Answers (exec (.mod r1 r2) s) fun t => ∃ w : Word,
      t = { s with log := s.log ++ [⟨.modByZero, s.pc, w⟩], pc := s.pc + 1 } ∧
      ∀ v, s.fetch = some v → w = v)

/-- R183: `COPIAR` copies `r1` to `r2` and writes no flag. -/
def Obligations.CopiarCopiesR1ToR2 : Prop :=
  ∀ (s : State) (r1 r2 : Reg),
    Answers (exec (.copiar r1 r2) s) fun t => PutsOneRegister s t r2 (s.x.get r1) ∧
      t.x.get r1 = s.x.get r1

/-- R184: `COMP` writes `Z`, `N` and `C` from the difference of its operands and nothing else: no
register, and not `P` or `V`. -/
def Obligations.CompWritesThreeFlags : Prop :=
  ∀ (s : State) (r1 r2 : Reg),
    Answers (exec (.comp r1 r2) s) fun t =>
      (t.flags.Z = true ↔ val s r1 = val s r2) ∧ (t.flags.N = true ↔ val s r1 < val s r2) ∧
      (t.flags.C = true ↔ val s r1 < val s r2) ∧ t.flags.P = s.flags.P ∧ t.flags.V = s.flags.V ∧
      RegsKeptBut [] s t ∧ t.pc = s.pc + 1 ∧ MemoryKept s t ∧ ControlKept s t ∧
      t.draws = s.draws

/-- R185: `INTERCAMBIAR` swaps its two registers and writes no flag. -/
def Obligations.IntercambiarSwaps : Prop :=
  ∀ (s : State) (r1 r2 : Reg),
    Answers (exec (.intercambiar r1 r2) s) fun t =>
      t.x.get r1 = s.x.get r2 ∧ t.x.get r2 = s.x.get r1 ∧ RegsKeptBut [r1, r2] s t ∧
      t.flags = s.flags ∧ t.pc = s.pc + 1 ∧ MemoryKept s t ∧ ControlKept s t ∧ t.draws = s.draws

/-- Facts the spec draws from the flag rules, for every pair of operand words and both settings of
`ZERO_BASIS` (R171, R172, R179, R180, R181). -/
def Obligations.FlagCornersOfTheArithmetic : Prop :=
  ∀ (basis : ZeroBasis) (a b : Word) (d : Flags),
    ((flagUnit basis .sumar a b d).next.C = true → (flagUnit basis .sumar a b d).next.V = true) ∧
    (flagUnit basis .sumar a b d).next.N = false ∧ (flagUnit basis .mult a b d).next.N = false ∧
    (flagUnit .unmasked .sumar a b d).next.Z = decide (a = 0#32 ∧ b = 0#32) ∧
    (flagUnit basis .restar a b d).next.C = (flagUnit basis .restar a b d).next.N ∧
    (flagUnit basis .restar a b d).next.Z = decide (a = b) ∧
    (flagUnit basis .sumar a b d).next.P = !(a + b).getLsbD 0 ∧
    (flagUnit basis .restar a b d).next.P = !(a - b).getLsbD 0 ∧
    (flagUnit basis .mult a b d).next.P = !(a * b).getLsbD 0

/-- R174: the two settings of `ZERO_BASIS` differ only for `SUMAR` and `MULT`, and for them exactly when
the unmasked result is a non-zero multiple of `2^32`. -/
def Obligations.ZeroBasisMattersOnlyAtMultiples : Prop :=
  ∀ (op : OpD) (a b : Word) (d : Flags),
    flagUnit .unmasked op a b d ≠ flagUnit .masked op a b d ↔
      (op = .sumar ∧ a.toNat + b.toNat = 2 ^ 32) ∨
      (op = .mult ∧ a.toNat * b.toNat ≠ 0 ∧ 2 ^ 32 ∣ a.toNat * b.toNat)

/-- The unbounded-integer formulas are the word operations: results wrap modulo `2^32`, and quotient and
remainder are the unsigned ones (R187). -/
def Obligations.ArithmeticFormulasAreWordArithmetic : Prop :=
  ∀ a b : Word,
    maskWord (unmaskedSum a b) = a + b ∧ maskWord (unmaskedDifference a b) = a - b ∧
    maskWord (unmaskedProduct a b) = a * b ∧ quotient a b = a / b ∧ remainder a b = a % b ∧
    complement a = ~~~a ∧ (b ≠ 0#32 → a = quotient a b * b + remainder a b ∧
      (remainder a b).toNat < b.toNat)

/-! ## Loader and assembler -/

/-- R252, R253: a successful load places word `i` at `base + i`, with its low field moved by `base` if
it is a Format A or C word and unchanged otherwise, and leaves every other word as it was. -/
def Obligations.LoadPlacesRelocatedWords : Prop :=
  ∀ (p : Params) (mem m : Memory) (words : List Word) (base : Nat), mem.wf = true →
    load p mem words base = .ok m →
    m.wf = true ∧
    (∀ (i : Nat) (w : Word), words[i]? = some w →
      (memoryReferencing p.opc w = true →
        fieldOpC (m.readWord (base + i)) = fieldOpC w ∧
        (fieldLow (m.readWord (base + i))).toNat = base + (fieldLow w).toNat) ∧
      (memoryReferencing p.opc w = false → m.readWord (base + i) = w)) ∧
    ∀ a, (a < base ∨ base + words.length ≤ a) → m.readWord a = mem.readWord a

/-- A load that names no base is at the default base 0 and places every word unchanged: word `i` at
address `i` (R7, R8, R252, R253). -/
def Obligations.ALoadAtTheDefaultBaseCopiesItsWords : Prop :=
  ∀ (p : Params) (mem m : Memory) (words : List Word), mem.wf = true → load p mem words = .ok m →
    load p mem words = load p mem words 0 ∧
    (∀ (i : Nat) (w : Word), words[i]? = some w → m.readWord i = w) ∧
    ∀ a, words.length ≤ a → m.readWord a = mem.readWord a

/-- R254: a load fails exactly on an empty input, a word that falls outside memory or a relocated
address above 2047. -/
def Obligations.LoadFailsExactlyOnTheListedErrors : Prop :=
  ∀ (p : Params) (mem : Memory) (words : List Word) (base : Nat),
    (∃ e, load p mem words base = .error e) ↔
      words = [] ∨ ∃ (i : Nat) (w : Word), words[i]? = some w ∧
        (p.memSize ≤ base + i ∨
          (memoryReferencing p.opc w = true ∧ base + (fieldLow w).toNat > 2047))

/-- Relocation keeps the operation and the register of a word and moves only its address (R122,
R253). -/
def Obligations.RelocationKeepsTheOperation : Prop :=
  ∀ (opc : Opc) (base : Nat) (w w' : Word), relocate opc base w = some w' →
    (∀ op r addr, classify opc w = .A op r addr →
      ∃ addr', classify opc w' = .A op r addr' ∧ addr'.toNat = base + addr.toNat) ∧
    (∀ op target, classify opc w = .C op target →
      ∃ target', classify opc w' = .C op target' ∧ target'.toNat = base + target.toNat) ∧
    (memoryReferencing opc w = false → w' = w)

/-- For every legal assignment and every legal spelling of the jumps, the line that writes a well-formed
instruction assembles to a word that decodes to that instruction with its operands (R93). Which
spellings are legal, beyond being distinct, is the model's choice (log entry 12). -/
def Obligations.AssembledLinesDecodeBack : Prop :=
  ∀ (m : JmpMnemonics) (opc : Opc) (i : Instr),
    m.wellFormed (fixedMnemonics.map (·.1)) = true → opc.legal = true → i.wellFormed opc = true →
    ∃ w, assembleLine m opc (Instr.line m i) = .ok w ∧ decode opc w = some i

/-- A batch assembles exactly when every line does, to one word per line in order; otherwise it gives
no words and exactly the errors of the lines that fail (R89, R90). -/
def Obligations.AssemblyIsLineByLineAndAllOrNothing : Prop :=
  ∀ (m : JmpMnemonics) (opc : Opc) (lines : List (List Char)),
    (∀ words, assemble m opc lines = .ok words ↔
      lines.map (assembleLine m opc) = words.map .ok) ∧
    (∀ errors, assemble m opc lines = .error errors →
      errors ≠ [] ∧ ∀ (i : Nat) (e : AsmError), (i, e) ∈ errors ↔
        ∃ line, lines[i]? = some line ∧ assembleLine m opc line = .error e)

/-- R92: words and their 32-character strings convert into each other without loss, character 0 being
bit 31. -/
def Obligations.WordStringsAreLossless : Prop :=
  (∀ w : Word, (wordString w).length = 32 ∧ wordOfString (wordString w) = some w ∧
    ∀ i, i < 32 → (wordString w)[i]? = some (if w.getLsbD (31 - i) then '1' else '0')) ∧
  ∀ (cs : List Char) (w : Word), wordOfString cs = some w → wordString w = cs

/-- Booting assembles, loads into a zero-initialised memory and launches: the booted engine is running
at `ENTRY` with an empty log, its memory canonical, each line's word, relocated, in place, and every
word outside the image 0 (R251, R255). -/
def Obligations.BootRunsTheLoadedProgram : Prop :=
  ∀ (p : Params) (m : JmpMnemonics) (lines : List (List Char)) (base entry : Nat) (x : Regs)
    (f : Flags) (d : Nat) (s : State), boot p m lines base entry x f d = .ok s →
    s.run = .running ∧ s.pc = entry ∧ s.log = [] ∧ s.x = x ∧ s.flags = f ∧ s.params = p ∧
    s.mem.wf = true ∧ lines ≠ [] ∧
    (∀ (i : Nat) (line : List Char), lines[i]? = some line →
      ∃ w, assembleLine m p.opc line = .ok w ∧
        relocate p.opc base w = some (s.mem.readWord (base + i))) ∧
    ∀ a, (a < base ∨ base + lines.length ≤ a) → s.mem.readWord a = 0#32
end

