-- ==== Sys2Proof/Laws/Alu.lean ====
section
/-! SUPPORT. Laws/Alu.lean: the word functions and flag primitives as statements about numbers. -/

namespace Sys2Proof.Machine

/-- Masking is reduction modulo `2^32` (R10). -/
theorem toNat_maskWord (u : Int) : ((maskWord u).toNat : Int) = u % 2 ^ 32 := by
  rw [maskWord, BitVec.toNat_ofInt, Int.toNat_of_nonneg (Int.emod_nonneg _ (by simp))]
  rfl

/-- Masking a word's own value gives the word back. -/
theorem maskWord_toNat (v : Word) : maskWord (v.toNat : Int) = v := by
  apply BitVec.eq_of_toNat_eq
  have := toNat_maskWord v.toNat
  have := v.isLt
  omega

/-- `bit31` of an integer (R10). -/
theorem bit31_iff (u : Int) : bit31 u = true ↔ 2 ^ 31 ≤ u % 2 ^ 32 := by
  have h : bit31 u = (maskWord u).msb := by rw [bit31, BitVec.msb_eq_getLsbD_last]
  rw [h, BitVec.msb_eq_decide, ← toNat_maskWord]
  simp

/-- The heuristic reads bit 31 of all three integers (R171). -/
theorem heur_iff (a b : Word) (u : Int) : heur a b u = true ↔
    (bit31 a.toNat = true ↔ bit31 b.toNat = true) ∧ ¬ (bit31 u = true ↔ bit31 a.toNat = true) := by
  have ha : bit31 a.toNat = a.getLsbD 31 := by rw [bit31, maskWord_toNat]
  have hb : bit31 b.toNat = b.getLsbD 31 := by rw [bit31, maskWord_toNat]
  rw [ha, hb, heur]
  cases a.getLsbD 31 <;> cases b.getLsbD 31 <;> cases bit31 u <;> decide

/-- Parity is bit 0 of the masked result (R171). -/
theorem parity_eq (u : Int) : parity u = !(maskWord u).getLsbD 0 := by
  have hm := toNat_maskWord u
  have h0 : (maskWord u).getLsbD 0 = decide ((maskWord u).toNat % 2 = 1) := by
    rw [← BitVec.testBit_toNat, Nat.testBit_zero]
  rw [h0, parity]
  by_cases h : (maskWord u).toNat % 2 = 1 <;> simp [h] <;> omega

/-- Where the two bases of `Z` part (R174). -/
theorem zero_bases_differ (u : Int) :
    zero .unmasked u ≠ zero .masked u ↔ u ≠ 0 ∧ u % 2 ^ 32 = 0 := by
  unfold zero
  by_cases h : u = 0 <;> by_cases h' : u % 2 ^ 32 = 0 <;> simp [h]

theorem toNat_quotient (a b : Word) : (quotient a b).toNat = a.toNat / b.toNat := by
  rw [quotient, BitVec.toNat_ofNat,
    Nat.mod_eq_of_lt (Nat.lt_of_le_of_lt (Nat.div_le_self _ _) a.isLt)]

theorem toNat_remainder (a b : Word) : (remainder a b).toNat = a.toNat % b.toNat := by
  rw [remainder, BitVec.toNat_ofNat,
    Nat.mod_eq_of_lt (Nat.lt_of_le_of_lt (Nat.mod_le _ _) a.isLt)]

/-- The complement as the bitwise one (R10, R178). -/
theorem complement_eq_not (v : Word) : complement v = ~~~v := by
  have h : (0xFFFFFFFF#32) = BitVec.allOnes 32 := by decide
  rw [complement, h, BitVec.allOnes_sub_eq_not]

end Sys2Proof.Machine
end

