-- ==== Sys2Proof/Laws/Assembler.lean ====
section
/-! SUPPORT. Laws/Assembler.lean: the tokens of a written line, and register names and digits read
back. -/

namespace Sys2Proof.Machine

/-! ## Tokens (R87) -/

/-- A run of characters without whitespace joins the token being read. -/
theorem tokensFrom_word {t current : Token} {rest : List Char}
    (h : ∀ c ∈ t, c.isWhitespace = false) :
    tokensFrom current (t ++ rest) = tokensFrom (current ++ t) rest := by
  induction t generalizing current with
  | nil => simp
  | cons c t ih =>
    have hc := h c (by simp)
    simp only [List.cons_append, tokensFrom, hc, Bool.false_eq_true, if_false]
    rw [ih fun c' h' => h c' (by simp [h'])]; simp

/-- One word alone is one token. -/
theorem tokens_word {t : Token} (h : ∀ c ∈ t, c.isWhitespace = false) (hn : t ≠ []) :
    tokens t = [t] := by
  have := tokensFrom_word (current := []) (rest := []) h
  rw [List.append_nil, List.nil_append] at this
  rw [tokens, this, tokensFrom, if_neg hn]

/-- A word and a space give a token and the tokens after it. -/
theorem tokens_word_space {t : Token} {rest : List Char} (h : ∀ c ∈ t, c.isWhitespace = false)
    (hn : t ≠ []) : tokens (t ++ ' ' :: rest) = t :: tokens rest := by
  rw [tokens, tokensFrom_word h]; simp [tokensFrom, tokens, hn]

/-! ## Register names and digits -/

theorem parseReg_name (r : Reg) : parseReg (Reg.name r) = .ok r := by cases r <;> rfl

theorem Reg.name_isToken (r : Reg) :
    (∀ c ∈ Reg.name r, c.isWhitespace = false) ∧ Reg.name r ≠ [] := by
  cases r <;> simp [Reg.name]

theorem digitChar_spec (n : Nat) (h : n < 10) : digitValue (digitChar n) = n ∧
    (digitChar n).isDigit = true ∧ (digitChar n).isWhitespace = false := by
  refine ⟨?_, ?_⟩
  · rw [digitValue, digitChar, Char.toNat_ofNat, if_pos (.inl (by omega))]; omega
  · unfold digitChar; interval_cases n <;> exact ⟨rfl, rfl⟩

/-- The digits of a number, read back. -/
theorem decimalFrom_spec (fuel n : Nat) (h : n < 10 ^ (fuel + 1)) :
    digitsValue (decimalFrom (fuel + 1) n) = n ∧
    (∀ c ∈ decimalFrom (fuel + 1) n, c.isDigit = true ∧ c.isWhitespace = false) ∧
    decimalFrom (fuel + 1) n ≠ [] := by
  induction fuel generalizing n with
  | zero =>
    obtain ⟨h1, h2, h3⟩ := digitChar_spec n (by omega)
    rw [decimalFrom, if_pos (by omega)]
    refine ⟨by simp [digitsValue, h1], fun c hc => ?_, by simp⟩
    rw [List.mem_singleton.1 hc]; exact ⟨h2, h3⟩
  | succ f ih =>
    rw [decimalFrom]
    split
    · next hn =>
      obtain ⟨h1, h2, h3⟩ := digitChar_spec n hn
      refine ⟨by simp [digitsValue, h1], fun c hc => ?_, by simp⟩
      rw [List.mem_singleton.1 hc]; exact ⟨h2, h3⟩
    · next hn =>
      obtain ⟨i1, i2, i3⟩ := ih (n / 10) (by rw [pow_succ] at h; omega)
      obtain ⟨h1, h2, h3⟩ := digitChar_spec (n % 10) (by omega)
      refine ⟨?_, fun c hc => ?_, by simp⟩
      · rw [digitsValue] at i1 ⊢
        rw [List.foldl_append, i1]
        simp only [List.foldl_cons, List.foldl_nil, h1]; omega
      · rcases List.mem_append.1 hc with hc | hc
        · exact i2 c hc
        · rw [List.mem_singleton.1 hc]; exact ⟨h2, h3⟩

end Sys2Proof.Machine
end

