-- ==== Sys2Proof/Laws/State.lean ====
section
/-! SUPPORT. Laws/State.lean: one lemma per field per update of the state. -/

namespace Sys2Proof.Machine

/-! ## `State.setReg` -/

@[simp] theorem State.setReg_params (s : State) (r : Reg) (v : Word) :
    (s.setReg r v).params = s.params := rfl
@[simp] theorem State.setReg_x (s : State) (r : Reg) (v : Word) :
    (s.setReg r v).x = s.x.set r v := rfl
@[simp] theorem State.setReg_flags (s : State) (r : Reg) (v : Word) :
    (s.setReg r v).flags = s.flags := rfl
@[simp] theorem State.setReg_pc (s : State) (r : Reg) (v : Word) :
    (s.setReg r v).pc = s.pc := rfl
@[simp] theorem State.setReg_mem (s : State) (r : Reg) (v : Word) :
    (s.setReg r v).mem = s.mem := rfl
@[simp] theorem State.setReg_run (s : State) (r : Reg) (v : Word) :
    (s.setReg r v).run = s.run := rfl
@[simp] theorem State.setReg_log (s : State) (r : Reg) (v : Word) :
    (s.setReg r v).log = s.log := rfl
@[simp] theorem State.setReg_draws (s : State) (r : Reg) (v : Word) :
    (s.setReg r v).draws = s.draws := rfl

/-! ## `State.setReg2` -/

@[simp] theorem State.setReg2_params (s : State) (r1 : Reg) (v1 : Word) (r2 : Reg) (v2 : Word) :
    (s.setReg2 r1 v1 r2 v2).params = s.params := rfl
@[simp] theorem State.setReg2_x (s : State) (r1 : Reg) (v1 : Word) (r2 : Reg) (v2 : Word) :
    (s.setReg2 r1 v1 r2 v2).x = s.x.set2 r1 v1 r2 v2 := rfl
@[simp] theorem State.setReg2_flags (s : State) (r1 : Reg) (v1 : Word) (r2 : Reg) (v2 : Word) :
    (s.setReg2 r1 v1 r2 v2).flags = s.flags := rfl
@[simp] theorem State.setReg2_pc (s : State) (r1 : Reg) (v1 : Word) (r2 : Reg) (v2 : Word) :
    (s.setReg2 r1 v1 r2 v2).pc = s.pc := rfl
@[simp] theorem State.setReg2_mem (s : State) (r1 : Reg) (v1 : Word) (r2 : Reg) (v2 : Word) :
    (s.setReg2 r1 v1 r2 v2).mem = s.mem := rfl
@[simp] theorem State.setReg2_run (s : State) (r1 : Reg) (v1 : Word) (r2 : Reg) (v2 : Word) :
    (s.setReg2 r1 v1 r2 v2).run = s.run := rfl
@[simp] theorem State.setReg2_log (s : State) (r1 : Reg) (v1 : Word) (r2 : Reg) (v2 : Word) :
    (s.setReg2 r1 v1 r2 v2).log = s.log := rfl
@[simp] theorem State.setReg2_draws (s : State) (r1 : Reg) (v1 : Word) (r2 : Reg) (v2 : Word) :
    (s.setReg2 r1 v1 r2 v2).draws = s.draws := rfl

/-! ## `State.updateFlags` -/

@[simp] theorem State.updateFlags_params (s : State) (op : OpD) (a b : Word) :
    (s.updateFlags op a b).params = s.params := rfl
@[simp] theorem State.updateFlags_x (s : State) (op : OpD) (a b : Word) :
    (s.updateFlags op a b).x = s.x := rfl
@[simp] theorem State.updateFlags_flags (s : State) (op : OpD) (a b : Word) :
    (s.updateFlags op a b).flags = (flagUnit s.params.zeroBasis op a b (s.drawn op a b)).apply s.flags := rfl
@[simp] theorem State.updateFlags_pc (s : State) (op : OpD) (a b : Word) :
    (s.updateFlags op a b).pc = s.pc := rfl
@[simp] theorem State.updateFlags_mem (s : State) (op : OpD) (a b : Word) :
    (s.updateFlags op a b).mem = s.mem := rfl
@[simp] theorem State.updateFlags_run (s : State) (op : OpD) (a b : Word) :
    (s.updateFlags op a b).run = s.run := rfl
@[simp] theorem State.updateFlags_log (s : State) (op : OpD) (a b : Word) :
    (s.updateFlags op a b).log = s.log := rfl
@[simp] theorem State.updateFlags_draws (s : State) (op : OpD) (a b : Word) :
    (s.updateFlags op a b).draws = if drawsFlags op b then s.draws + 1 else s.draws := rfl

/-! ## `State.advance` -/

@[simp] theorem State.advance_params (s : State) :
    (s.advance).params = s.params := rfl
@[simp] theorem State.advance_x (s : State) :
    (s.advance).x = s.x := rfl
@[simp] theorem State.advance_flags (s : State) :
    (s.advance).flags = s.flags := rfl
@[simp] theorem State.advance_pc (s : State) :
    (s.advance).pc = s.pc + 1 := rfl
@[simp] theorem State.advance_mem (s : State) :
    (s.advance).mem = s.mem := rfl
@[simp] theorem State.advance_run (s : State) :
    (s.advance).run = s.run := rfl
@[simp] theorem State.advance_log (s : State) :
    (s.advance).log = s.log := rfl
@[simp] theorem State.advance_draws (s : State) :
    (s.advance).draws = s.draws := rfl

/-! ## `State.jumpIf` -/

@[simp] theorem State.jumpIf_params (s : State) (c : Bool) (t : Field11) :
    (s.jumpIf c t).params = s.params := rfl
@[simp] theorem State.jumpIf_x (s : State) (c : Bool) (t : Field11) :
    (s.jumpIf c t).x = s.x := rfl
@[simp] theorem State.jumpIf_flags (s : State) (c : Bool) (t : Field11) :
    (s.jumpIf c t).flags = s.flags := rfl
@[simp] theorem State.jumpIf_pc (s : State) (c : Bool) (t : Field11) :
    (s.jumpIf c t).pc = if c then address t else s.pc + 1 := rfl
@[simp] theorem State.jumpIf_mem (s : State) (c : Bool) (t : Field11) :
    (s.jumpIf c t).mem = s.mem := rfl
@[simp] theorem State.jumpIf_run (s : State) (c : Bool) (t : Field11) :
    (s.jumpIf c t).run = s.run := rfl
@[simp] theorem State.jumpIf_log (s : State) (c : Bool) (t : Field11) :
    (s.jumpIf c t).log = s.log := rfl
@[simp] theorem State.jumpIf_draws (s : State) (c : Bool) (t : Field11) :
    (s.jumpIf c t).draws = s.draws := rfl

/-! ## `State.report` -/

@[simp] theorem State.report_params (s : State) (k : ReportKind) :
    (s.report k).params = s.params := rfl
@[simp] theorem State.report_x (s : State) (k : ReportKind) :
    (s.report k).x = s.x := rfl
@[simp] theorem State.report_flags (s : State) (k : ReportKind) :
    (s.report k).flags = s.flags := rfl
@[simp] theorem State.report_pc (s : State) (k : ReportKind) :
    (s.report k).pc = s.pc := rfl
@[simp] theorem State.report_mem (s : State) (k : ReportKind) :
    (s.report k).mem = s.mem := rfl
@[simp] theorem State.report_run (s : State) (k : ReportKind) :
    (s.report k).run = s.run := rfl
@[simp] theorem State.report_log (s : State) (k : ReportKind) :
    (s.report k).log = s.log ++ [⟨k, s.pc, s.mem.readWord s.pc⟩] := rfl
@[simp] theorem State.report_draws (s : State) (k : ReportKind) :
    (s.report k).draws = s.draws := rfl

/-! ## `State.halt` -/

@[simp] theorem State.halt_params (s : State) (h : HaltReason) :
    (s.halt h).params = s.params := rfl
@[simp] theorem State.halt_x (s : State) (h : HaltReason) :
    (s.halt h).x = s.x := rfl
@[simp] theorem State.halt_flags (s : State) (h : HaltReason) :
    (s.halt h).flags = s.flags := rfl
@[simp] theorem State.halt_pc (s : State) (h : HaltReason) :
    (s.halt h).pc = s.pc := rfl
@[simp] theorem State.halt_mem (s : State) (h : HaltReason) :
    (s.halt h).mem = s.mem := rfl
@[simp] theorem State.halt_run (s : State) (h : HaltReason) :
    (s.halt h).run = .halted h := rfl
@[simp] theorem State.halt_log (s : State) (h : HaltReason) :
    (s.halt h).log = s.log := rfl
@[simp] theorem State.halt_draws (s : State) (h : HaltReason) :
    (s.halt h).draws = s.draws := rfl

/-! ## `State.raise` -/

@[simp] theorem State.raise_params (s : State) (f : FaultReason) :
    (s.raise f).params = s.params := rfl
@[simp] theorem State.raise_x (s : State) (f : FaultReason) :
    (s.raise f).x = s.x := rfl
@[simp] theorem State.raise_flags (s : State) (f : FaultReason) :
    (s.raise f).flags = s.flags := rfl
@[simp] theorem State.raise_pc (s : State) (f : FaultReason) :
    (s.raise f).pc = s.pc := rfl
@[simp] theorem State.raise_mem (s : State) (f : FaultReason) :
    (s.raise f).mem = s.mem := rfl
@[simp] theorem State.raise_run (s : State) (f : FaultReason) :
    (s.raise f).run = .faulted f s.pc := rfl
@[simp] theorem State.raise_log (s : State) (f : FaultReason) :
    (s.raise f).log = s.log := rfl
@[simp] theorem State.raise_draws (s : State) (f : FaultReason) :
    (s.raise f).draws = s.draws := rfl

/-! ## `placeAtFetch` -/

@[simp] theorem placeAtFetch_params (s : State) (w : Word) : (placeAtFetch s w).params = s.params := rfl
@[simp] theorem placeAtFetch_x (s : State) (w : Word) : (placeAtFetch s w).x = s.x := rfl
@[simp] theorem placeAtFetch_flags (s : State) (w : Word) : (placeAtFetch s w).flags = s.flags := rfl
@[simp] theorem placeAtFetch_run (s : State) (w : Word) : (placeAtFetch s w).run = .running := rfl
@[simp] theorem placeAtFetch_log (s : State) (w : Word) : (placeAtFetch s w).log = s.log := rfl
@[simp] theorem placeAtFetch_draws (s : State) (w : Word) : (placeAtFetch s w).draws = s.draws := rfl
@[simp] theorem placeAtFetch_pc (s : State) (w : Word) :
    (placeAtFetch s w).pc = if s.pc < s.params.memSize then s.pc else 0 := rfl
@[simp] theorem placeAtFetch_mem (s : State) (w : Word) :
    (placeAtFetch s w).mem = s.mem.writeWord (placeAtFetch s w).pc w := rfl

/-! ## Reads that an update does not reach -/

@[simp] theorem State.reg_eq (s : State) (r : Reg) : s.reg r = s.x.get r := rfl

/-- Two states with the same fields are the same state. -/
theorem State.ext_fields {s t : State} (hp : s.params = t.params) (hx : s.x = t.x)
    (hf : s.flags = t.flags) (hpc : s.pc = t.pc) (hm : s.mem = t.mem) (hr : s.run = t.run)
    (hl : s.log = t.log) (hd : s.draws = t.draws) : s = t := by
  cases s; cases t; simp_all

end Sys2Proof.Machine
end

