-- ==== Sys2Proof/Laws/Registers.lean ====
section
/-! SUPPORT. Laws/Registers.lean: read after write for the register file, and register numbers. -/

namespace Sys2Proof

theorem Reg.mem_all (r : Reg) : r ∈ Reg.all := by cases r <;> decide

@[simp] theorem Reg.ofBits_toBits (r : Reg) : Reg.ofBits r.toBits = r := by cases r <;> rfl

@[simp] theorem Reg.toBits_ofBits (b : BitVec 3) : (Reg.ofBits b).toBits = b := by
  revert b; decide

theorem Reg.toBits_injective {r r' : Reg} (h : r.toBits = r'.toBits) : r = r' := by
  rw [← Reg.ofBits_toBits r, h, Reg.ofBits_toBits]

namespace Machine

/-- A register written holds the new value; every other register keeps its own (R21, R22). -/
theorem Regs.get_set (x : Regs) (r r' : Reg) (v : Word) :
    (x.set r v).get r' = if r' = r then v else x.get r' := by
  cases r <;> cases r' <;> rfl

@[simp] theorem Regs.get_set_same (x : Regs) (r : Reg) (v : Word) : (x.set r v).get r = v := by
  simp [Regs.get_set]

theorem Regs.get_set_other (x : Regs) {r r' : Reg} (v : Word) (h : r' ≠ r) :
    (x.set r v).get r' = x.get r' := by
  simp [Regs.get_set, h]

/-- Where both write ports name one register, port 2 wins (R37). -/
theorem Regs.get_set2 (x : Regs) (r1 r2 r' : Reg) (v1 v2 : Word) :
    (x.set2 r1 v1 r2 v2).get r' = if r' = r2 then v2 else if r' = r1 then v1 else x.get r' := by
  simp [Regs.set2, Regs.get_set]

/-- A register file is the values of its registers. -/
theorem Regs.ext_get {x y : Regs} (h : ∀ r, x.get r = y.get r) : x = y := by
  cases x; cases y
  have h0 := h .R0; have h1 := h .R1; have h2 := h .R2; have h3 := h .R3
  have h4 := h .R4; have h5 := h .R5; have h6 := h .R6; have h7 := h .R7
  simp_all [Regs.get]

@[simp] theorem Regs.get_build (f : Reg → Word) (r : Reg) : (Regs.build f).get r = f r := by
  cases r <;> rfl

/-- Writing a register with its own value changes nothing. -/
theorem Regs.set_get (x : Regs) (r : Reg) : x.set r (x.get r) = x :=
  Regs.ext_get fun r' => by by_cases h : r' = r <;> simp [Regs.get_set, h]

end Machine

end Sys2Proof
end

