-- ==== Sys2Proof/Laws/Decode.lean ====
section
/-! SUPPORT. Laws/Decode.lean: the fields of a packed word, a word rebuilt from its fields, and looking
up in a table that holds each key and each operation once. -/

namespace Sys2Proof

/-! ## Packed words and fields as numbers (R71 to R76) -/

/-- Concatenation as a number: the upper part is scaled past the lower one (R9). -/
theorem toNat_append_eq {n m : Nat} (x : BitVec n) (y : BitVec m) :
    (x ++ y).toNat = x.toNat * 2 ^ m + y.toNat := by
  rw [BitVec.toNat_append, ← Nat.shiftLeft_add_eq_or_of_lt y.isLt, Nat.shiftLeft_eq]

theorem toNat_packAB (k : BitVec 18) (r : Reg) (f : Field11) :
    (packAB k r f).toNat = k.toNat * 2 ^ 14 + r.toBits.toNat * 2 ^ 11 + f.toNat := by
  simp only [packAB, toNat_append_eq]; omega

theorem toNat_packC (k : BitVec 21) (f : Field11) :
    (packC k f).toNat = k.toNat * 2 ^ 11 + f.toNat := by
  simp only [packC, toNat_append_eq]

theorem toNat_packD (k : BitVec 26) (r1 r2 : Reg) :
    (packD k r1 r2).toNat = k.toNat * 2 ^ 6 + r1.toBits.toNat * 2 ^ 3 + r2.toBits.toNat := by
  simp only [packD, toNat_append_eq]; omega

/-- A bit slice as a number: `w[hi:lo]` (R9). -/
theorem toNat_slice {n : Nat} (w : BitVec n) (lo len : Nat) :
    (w.extractLsb' lo len).toNat = w.toNat / 2 ^ lo % 2 ^ len := by
  rw [BitVec.extractLsb'_toNat, Nat.shiftRight_eq_div_pow]

/-! ## The fields of a packed word -/

@[simp] theorem fieldOpAB_packAB (k : BitVec 18) (r : Reg) (f : Field11) :
    fieldOpAB (packAB k r f) = k := by
  apply BitVec.eq_of_toNat_eq
  rw [fieldOpAB, toNat_slice, toNat_packAB]; omega

@[simp] theorem fieldR_packAB (k : BitVec 18) (r : Reg) (f : Field11) :
    fieldR (packAB k r f) = r := by
  have : (packAB k r f).extractLsb' 11 3 = r.toBits := by
    apply BitVec.eq_of_toNat_eq
    rw [toNat_slice, toNat_packAB]; omega
  rw [fieldR, this, Reg.ofBits_toBits]

@[simp] theorem fieldLow_packAB (k : BitVec 18) (r : Reg) (f : Field11) :
    fieldLow (packAB k r f) = f := by
  apply BitVec.eq_of_toNat_eq
  rw [fieldLow, toNat_slice, toNat_packAB]; omega

@[simp] theorem fieldOpC_packC (k : BitVec 21) (f : Field11) : fieldOpC (packC k f) = k := by
  apply BitVec.eq_of_toNat_eq
  rw [fieldOpC, toNat_slice, toNat_packC]; omega

@[simp] theorem fieldLow_packC (k : BitVec 21) (f : Field11) : fieldLow (packC k f) = f := by
  apply BitVec.eq_of_toNat_eq
  rw [fieldLow, toNat_slice, toNat_packC]; omega

@[simp] theorem fieldOpD_packD (k : BitVec 26) (r1 r2 : Reg) : fieldOpD (packD k r1 r2) = k := by
  apply BitVec.eq_of_toNat_eq
  rw [fieldOpD, toNat_slice, toNat_packD]; omega

@[simp] theorem fieldR1_packD (k : BitVec 26) (r1 r2 : Reg) : fieldR1 (packD k r1 r2) = r1 := by
  have : (packD k r1 r2).extractLsb' 3 3 = r1.toBits := by
    apply BitVec.eq_of_toNat_eq
    rw [toNat_slice, toNat_packD]; omega
  rw [fieldR1, this, Reg.ofBits_toBits]

@[simp] theorem fieldR2_packD (k : BitVec 26) (r1 r2 : Reg) : fieldR2 (packD k r1 r2) = r2 := by
  have : (packD k r1 r2).extractLsb' 0 3 = r2.toBits := by
    apply BitVec.eq_of_toNat_eq
    rw [toNat_slice, toNat_packD]; omega
  rw [fieldR2, this, Reg.ofBits_toBits]

/-! ## A word is its fields -/

theorem packAB_fields (w : Word) : packAB (fieldOpAB w) (fieldR w) (fieldLow w) = w := by
  apply BitVec.eq_of_toNat_eq
  rw [toNat_packAB, fieldR, Reg.toBits_ofBits, fieldOpAB, fieldLow, toNat_slice, toNat_slice,
    toNat_slice]
  omega

theorem packC_fields (w : Word) : packC (fieldOpC w) (fieldLow w) = w := by
  apply BitVec.eq_of_toNat_eq
  rw [toNat_packC, fieldOpC, fieldLow, toNat_slice, toNat_slice]
  omega

theorem packD_fields (w : Word) : packD (fieldOpD w) (fieldR1 w) (fieldR2 w) = w := by
  apply BitVec.eq_of_toNat_eq
  rw [toNat_packD, fieldR1, fieldR2, Reg.toBits_ofBits, Reg.toBits_ofBits, fieldOpD, toNat_slice,
    toNat_slice, toNat_slice]
  omega

/-! ## How the three opcode fields of a word overlap (R81 W2, W3) -/

theorem fieldOpAB_of_fieldOpC (w : Word) : fieldOpAB w = (fieldOpC w).extractLsb' 3 18 := by
  apply BitVec.eq_of_toNat_eq
  rw [fieldOpAB, fieldOpC, toNat_slice, toNat_slice, toNat_slice]; omega

theorem fieldOpAB_of_fieldOpD (w : Word) : fieldOpAB w = (fieldOpD w).extractLsb' 8 18 := by
  apply BitVec.eq_of_toNat_eq
  rw [fieldOpAB, fieldOpD, toNat_slice, toNat_slice, toNat_slice]; omega

theorem fieldOpC_of_fieldOpD (w : Word) : fieldOpC w = (fieldOpD w).extractLsb' 5 21 := by
  apply BitVec.eq_of_toNat_eq
  rw [fieldOpC, fieldOpD, toNat_slice, toNat_slice, toNat_slice]; omega

/-! ## Tables -/

section Tables

variable {n : Nat} {α : Type}

theorem lookup_none_iff {k : BitVec n} {tab : List (BitVec n × α)} :
    tab.lookup k = none ↔ k ∉ tab.map (·.1) := by
  induction tab with
  | nil => simp
  | cons e rest ih =>
    obtain ⟨k', op⟩ := e
    by_cases h : k = k'
    · subst h; simp [List.lookup]
    · have hb : (k == k') = false := by simpa using h
      simp [List.lookup, hb, ih, h]

theorem mem_of_lookup {k : BitVec n} {op : α} {tab : List (BitVec n × α)}
    (h : tab.lookup k = some op) : (k, op) ∈ tab := by
  induction tab with
  | nil => simp at h
  | cons e rest ih =>
    obtain ⟨k', op'⟩ := e
    by_cases hk : k = k'
    · subst hk; simp [List.lookup] at h; simp [h]
    · have hb : (k == k') = false := by simpa using hk
      simp only [List.lookup, hb] at h
      simp [ih h]

/-- In a table with no repeated key, looking up a listed key gives its operation. -/
theorem lookup_of_mem {k : BitVec n} {op : α} {tab : List (BitVec n × α)}
    (hn : (tab.map (·.1)).Nodup) (h : (k, op) ∈ tab) : tab.lookup k = some op := by
  induction tab with
  | nil => simp at h
  | cons e rest ih =>
    obtain ⟨k', op'⟩ := e
    simp only [List.map_cons, List.nodup_cons] at hn
    rcases List.mem_cons.1 h with hm | hm
    · obtain ⟨rfl, rfl⟩ := Prod.mk.inj hm
      simp [List.lookup]
    · have hk : k ≠ k' := by
        rintro rfl
        exact hn.1 (List.mem_map_of_mem (f := (·.1)) hm)
      have hb : (k == k') = false := by simpa using hk
      simp only [List.lookup, hb]
      exact ih hn.2 hm

variable [DecidableEq α]

theorem mem_of_keyOf {op : α} {k : BitVec n} {tab : List (BitVec n × α)}
    (h : keyOf op tab = some k) : (k, op) ∈ tab := by
  induction tab with
  | nil => simp [keyOf] at h
  | cons e rest ih =>
    obtain ⟨k', op'⟩ := e
    simp only [keyOf] at h
    split at h
    · rename_i ho
      rw [← ho, Option.some.inj h]; exact List.mem_cons_self
    · exact List.mem_cons_of_mem _ (ih h)

/-- In a table that lists an operation once, the key of its entry is the operation's key. -/
theorem keyOf_of_mem {op : α} {k : BitVec n} {tab : List (BitVec n × α)}
    (hc : (tab.map (·.2)).count op = 1) (h : (k, op) ∈ tab) : keyOf op tab = some k := by
  induction tab with
  | nil => simp at h
  | cons e rest ih =>
    obtain ⟨k', op'⟩ := e
    simp only [List.map_cons, List.count_cons] at hc
    simp only [keyOf]
    by_cases ho : op' = op
    · subst ho
      simp only [beq_self_eq_true, if_true] at hc
      have h0 : op' ∉ rest.map (·.2) := List.count_eq_zero.1 (by omega)
      rcases List.mem_cons.1 h with h | h
      · simp [(Prod.mk.inj h).1]
      · exact absurd (List.mem_map.2 ⟨(k, op'), h, rfl⟩) h0
    · have hb : (op' == op) = false := by simpa using ho
      simp only [hb, Bool.false_eq_true, if_false, Nat.add_zero] at hc
      rw [if_neg ho]
      rcases List.mem_cons.1 h with h | h
      · exact absurd (Prod.mk.inj h).2.symm ho
      · exact ih hc h

/-- What `tableOk` says of a table. -/
theorem tableOk_iff {ops : List α} {tab : List (BitVec n × α)} :
    tableOk ops tab = true ↔ (tab.map (·.1)).Nodup ∧ ∀ op ∈ ops, (tab.map (·.2)).count op = 1 := by
  simp [tableOk]

/-- A legal table has a key for each of its operations. -/
theorem keyOf_isSome {ops : List α} {tab : List (BitVec n × α)} (h : tableOk ops tab = true) {op : α}
    (hop : op ∈ ops) : ∃ k, keyOf op tab = some k := by
  have hc := (tableOk_iff.1 h).2 op hop
  have hm : op ∈ tab.map (·.2) := List.count_pos_iff.1 (by omega)
  obtain ⟨⟨k, op'⟩, he, rfl⟩ := List.mem_map.1 hm
  exact ⟨k, keyOf_of_mem hc he⟩

/-- In a legal table, keys and operations determine each other (R80). -/
theorem lookup_iff_keyOf {ops : List α} {tab : List (BitVec n × α)} (h : tableOk ops tab = true)
    {op : α} (hop : op ∈ ops) {k : BitVec n} : tab.lookup k = some op ↔ keyOf op tab = some k := by
  obtain ⟨hn, hc⟩ := tableOk_iff.1 h
  exact ⟨fun e => keyOf_of_mem (hc op hop) (mem_of_lookup e),
    fun e => lookup_of_mem hn (mem_of_keyOf e)⟩

end Tables

theorem OpAB.mem_all (op : OpAB) : op ∈ OpAB.all := by
  rcases op with op | op <;> cases op <;> decide

theorem OpC.mem_all (op : OpC) : op ∈ OpC.all := by cases op <;> decide

theorem OpD.mem_all (op : OpD) : op ∈ OpD.all := by cases op <;> decide

/-! ## Legal assignments (R81) -/

theorem Opc.legal_iff {opc : Opc} : opc.legal = true ↔
    (tableOk OpAB.all opc.tabAB = true ∧ tableOk OpC.all opc.tabC = true ∧
      tableOk OpD.all opc.tabD = true) ∧
    (∀ c ∈ opc.tabC, c.1.extractLsb' 3 18 ∉ opc.tabAB.map (·.1)) ∧
    (∀ d ∈ opc.tabD, d.1.extractLsb' 8 18 ∉ opc.tabAB.map (·.1) ∧
      d.1.extractLsb' 5 21 ∉ opc.tabC.map (·.1)) := by
  simp only [Opc.legal, Opc.W1, Opc.W2, Opc.W3, Bool.and_eq_true, List.all_eq_true,
    decide_eq_true_eq, and_assoc]

/-- The tuple form of an instruction gives the instruction back, and conversely. -/
@[simp] theorem Instr.decoded_instr? (i : Instr) : i.decoded.instr? = some i := by cases i <;> rfl

theorem Decoded.decoded_of_instr? {d : Decoded} {i : Instr} (h : d.instr? = some i) :
    i.decoded = d := by
  cases d with
  | halt => cases h; rfl
  | unrecognized => cases h
  | A op r f => cases op <;> cases h <;> rfl
  | B op r f => cases op <;> cases h <;> rfl
  | C op f => cases op <;> cases h <;> rfl
  | D op r1 r2 => cases op <;> cases h <;> rfl

end Sys2Proof
end

