-- ==== Sys2Proof/Laws/Memory.lean ====
section
/-! SUPPORT. Laws/Memory.lean: the memory list keeps its canonical form, a read after a write gives the
value written, a write leaves every other address alone, and equal memories are equal lists. -/

namespace Sys2Proof.Machine

/-! ## The canonical form -/

theorem Memory.wf_cons {c : Host.Cell} {m : Memory} :
    Memory.wf (c :: m) = true ↔ c.2 ≠ 0#8 ∧ (∀ d ∈ m, c.1 < d.1) ∧ Memory.wf m = true := by
  simp [Memory.wf, and_assoc]

@[simp] theorem Memory.wf_nil : Memory.wf [] = true := rfl

/-- An address below every listed one reads as 0. -/
theorem Memory.readByte_below {m : Memory} {a : Nat} (h : ∀ d ∈ m, a < d.1) : m.readByte a = 0#8 := by
  induction m with
  | nil => rfl
  | cons c rest ih =>
    have hc := h c (by simp)
    simp only [Memory.readByte, if_neg (by omega : ¬ c.1 = a)]
    exact ih fun d hd => h d (by simp [hd])

/-- A cell after a byte write is an old cell or the written one. -/
theorem Memory.mem_writeByte {m : Memory} {a : Nat} {v : Byte} {d : Host.Cell}
    (h : d ∈ m.writeByte a v) : d ∈ m ∨ d = (a, v) := by
  induction m with
  | nil => simp only [Memory.writeByte] at h; split at h <;> simp_all
  | cons c rest ih =>
    simp only [Memory.writeByte] at h
    split at h
    · split at h <;> simp_all; tauto
    · split at h
      · split at h <;> simp_all; tauto
      · rcases List.mem_cons.1 h with h | h
        · simp [h]
        · rcases ih h with h | h <;> simp [h]

/-- A byte write keeps the canonical form. -/
theorem Memory.wf_writeByte {m : Memory} (a : Nat) (v : Byte) (h : m.wf = true) :
    (m.writeByte a v).wf = true := by
  induction m with
  | nil => simp only [Memory.writeByte]; split <;> simp_all [Memory.wf]
  | cons c rest ih =>
    obtain ⟨hc, hlt, hr⟩ := Memory.wf_cons.1 h
    simp only [Memory.writeByte]
    split
    · split
      · exact h
      · refine Memory.wf_cons.2 ⟨by simpa, fun d hd => ?_, h⟩
        rcases List.mem_cons.1 hd with rfl | hd
        · assumption
        · exact Nat.lt_trans ‹_› (hlt d hd)
    · split
      · split
        · exact hr
        · subst_vars; exact Memory.wf_cons.2 ⟨by simpa, hlt, hr⟩
      · refine Memory.wf_cons.2 ⟨hc, fun d hd => ?_, ih hr⟩
        rcases Memory.mem_writeByte hd with hd | rfl
        · exact hlt d hd
        · show c.1 < a; omega

/-! ## Read after write, one byte -/

@[simp] theorem Memory.readByte_cons_same (a : Nat) (v : Byte) (m : Memory) :
    Memory.readByte ((a, v) :: m) a = v := if_pos rfl

theorem Memory.readByte_cons_other {c : Host.Cell} {b : Nat} (m : Memory) (h : b ≠ c.1) :
    Memory.readByte (c :: m) b = Memory.readByte m b := if_neg fun e => h e.symm

/-- Every byte after a byte write to a canonical memory. -/
theorem Memory.readByte_writeByte {m : Memory} (a b : Nat) (v : Byte) (h : m.wf = true) :
    (m.writeByte a v).readByte b = if b = a then v else m.readByte b := by
  induction m with
  | nil =>
    rcases eq_or_ne b a with rfl | hb <;> rcases eq_or_ne v 0#8 with rfl | hv
    · simp [Memory.writeByte, Memory.readByte]
    · rw [Memory.writeByte, if_neg hv, if_pos rfl, Memory.readByte_cons_same]
    · simp [Memory.writeByte, hb]
    · simp only [Memory.writeByte, if_neg hv, if_neg hb]
      exact Memory.readByte_cons_other [] hb
  | cons c rest ih =>
    obtain ⟨-, hlt, hr⟩ := Memory.wf_cons.1 h
    have below : ∀ {x : Nat}, x ≤ c.1 → Memory.readByte rest x = 0#8 := fun hx =>
      Memory.readByte_below fun d hd => Nat.lt_of_le_of_lt hx (hlt d hd)
    have belowAll : a < c.1 → Memory.readByte (c :: rest) a = 0#8 := fun hx => by
      rw [Memory.readByte_cons_other rest (Nat.ne_of_lt hx), below (Nat.le_of_lt hx)]
    simp only [Memory.writeByte]
    rcases Nat.lt_trichotomy a c.1 with hac | hac | hac
    · rw [if_pos hac]
      rcases eq_or_ne v 0#8 with rfl | hv <;> rcases eq_or_ne b a with rfl | hb
      · rw [if_pos rfl, if_pos rfl, belowAll hac]
      · rw [if_pos rfl, if_neg hb]
      · rw [if_neg hv, if_pos rfl, Memory.readByte_cons_same]
      · rw [if_neg hv, if_neg hb, Memory.readByte_cons_other _ hb]
    · rw [if_neg (by omega), if_pos hac]
      rcases eq_or_ne v 0#8 with rfl | hv <;> rcases eq_or_ne b a with rfl | hb
      · rw [if_pos rfl, if_pos rfl, below (Nat.le_of_eq hac)]
      · rw [if_pos rfl, if_neg hb, Memory.readByte_cons_other _ (hac ▸ hb)]
      · rw [if_neg hv, if_pos rfl, Memory.readByte_cons_same]
      · rw [if_neg hv, if_neg hb, Memory.readByte_cons_other _ hb,
          Memory.readByte_cons_other _ (hac ▸ hb)]
    · rw [if_neg (by omega), if_neg (by omega)]
      rcases eq_or_ne b c.1 with rfl | hb
      · rw [if_neg (by omega)]; simp only [Memory.readByte, if_true]
      · rw [Memory.readByte_cons_other _ hb, Memory.readByte_cons_other _ hb, ih hr]

/-- Two canonical memories that read the same everywhere are the same list. -/
theorem Memory.eq_of_readByte {m m' : Memory} (h : m.wf = true) (h' : m'.wf = true)
    (e : ∀ a, m.readByte a = m'.readByte a) : m = m' := by
  induction m generalizing m' with
  | nil =>
    cases m' with
    | nil => rfl
    | cons c rest =>
      obtain ⟨hc, -, -⟩ := Memory.wf_cons.1 h'
      exact absurd (e c.1).symm (by simpa [Memory.readByte] using hc)
  | cons c rest ih =>
    obtain ⟨hc, hlt, hr⟩ := Memory.wf_cons.1 h
    have hcHead : Memory.readByte (c :: rest) c.1 = c.2 := if_pos rfl
    cases m' with
    | nil => exact absurd ((e c.1).symm.trans hcHead) (by simpa [Memory.readByte] using hc.symm)
    | cons c' rest' =>
      obtain ⟨hc', hlt', hr'⟩ := Memory.wf_cons.1 h'
      have hcHead' : Memory.readByte (c' :: rest') c'.1 = c'.2 := if_pos rfl
      have haddr : c.1 = c'.1 := by
        rcases Nat.lt_trichotomy c.1 c'.1 with hl | hl | hl
        · refine absurd (hcHead.symm.trans ((e c.1).trans (Memory.readByte_below ?_))) hc
          intro d hd
          rcases List.mem_cons.1 hd with rfl | hd
          · exact hl
          · exact Nat.lt_trans hl (hlt' d hd)
        · exact hl
        · refine absurd (hcHead'.symm.trans ((e c'.1).symm.trans (Memory.readByte_below ?_))) hc'
          intro d hd
          rcases List.mem_cons.1 hd with rfl | hd
          · exact hl
          · exact Nat.lt_trans hl (hlt d hd)
      have hcell : c = c' :=
        Prod.ext haddr (hcHead.symm.trans ((e c.1).trans (haddr ▸ hcHead')))
      subst hcell
      congr 1
      refine ih hr hr' fun a => ?_
      by_cases ha : a ≤ c.1
      · rw [Memory.readByte_below fun d hd => Nat.lt_of_le_of_lt ha (hlt d hd),
          Memory.readByte_below fun d hd => Nat.lt_of_le_of_lt ha (hlt' d hd)]
      · have := e a
        rwa [Memory.readByte_cons_other _ (by omega), Memory.readByte_cons_other _ (by omega)] at this

/-! ## Words -/

theorem Memory.wf_writeWord {m : Memory} (a : Nat) (v : Word) (h : m.wf = true) :
    (m.writeWord a v).wf = true :=
  Memory.wf_writeByte _ _ (Memory.wf_writeByte _ _ (Memory.wf_writeByte _ _ (Memory.wf_writeByte _ _ h)))

/-- Every byte after a word write: the four bytes of the word at `4 * a`, all others as before. -/
theorem Memory.readByte_writeWord {m : Memory} (a b : Nat) (v : Word) (h : m.wf = true) :
    (m.writeWord a v).readByte b =
      if b / 4 = a then wordByte v (b % 4) else m.readByte b := by
  have h0 := Memory.wf_writeByte (4 * a) (wordByte v 0) h
  have h1 := Memory.wf_writeByte (4 * a + 1) (wordByte v 1) h0
  have h2 := Memory.wf_writeByte (4 * a + 2) (wordByte v 2) h1
  unfold Memory.writeWord
  rw [Memory.readByte_writeByte _ _ _ h2, Memory.readByte_writeByte _ _ _ h1,
    Memory.readByte_writeByte _ _ _ h0, Memory.readByte_writeByte _ _ _ h]
  by_cases hb : b / 4 = a
  · have : b % 4 = 0 ∨ b % 4 = 1 ∨ b % 4 = 2 ∨ b % 4 = 3 := by omega
    rcases this with e | e | e | e <;>
      simp only [hb, if_true, e] <;> repeat (first | rw [if_pos (by omega)] | rw [if_neg (by omega)])
  · simp only [if_neg hb]
    repeat rw [if_neg (by omega)]

/-- The four bytes of a word, put together, are the word. -/
theorem wordByte_append (v : Word) :
    wordByte v 3 ++ wordByte v 2 ++ wordByte v 1 ++ wordByte v 0 = v := by
  apply BitVec.eq_of_toNat_eq
  have h := v.isLt
  simp only [wordByte, BitVec.toNat_append, BitVec.extractLsb'_toNat, Nat.shiftRight_eq_div_pow]
  rw [← Nat.shiftLeft_add_eq_or_of_lt (by omega), ← Nat.shiftLeft_add_eq_or_of_lt (by omega),
    ← Nat.shiftLeft_add_eq_or_of_lt (by omega)]
  simp only [Nat.shiftLeft_eq]
  omega

/-- The word at an address after a word write (R57, R60). -/
theorem Memory.readWord_writeWord {m : Memory} (a b : Nat) (v : Word) (h : m.wf = true) :
    (m.writeWord a v).readWord b = if b = a then v else m.readWord b := by
  simp only [Memory.readWord, Memory.readByte_writeWord _ _ _ h]
  rw [(by omega : (4 * b + 3) / 4 = b), (by omega : (4 * b + 2) / 4 = b),
    (by omega : (4 * b + 1) / 4 = b), (by omega : 4 * b / 4 = b),
    (by omega : (4 * b + 3) % 4 = 3), (by omega : (4 * b + 2) % 4 = 2),
    (by omega : (4 * b + 1) % 4 = 1), (by omega : 4 * b % 4 = 0)]
  by_cases hb : b = a
  · simp only [hb, if_true]; exact wordByte_append v
  · simp only [hb, if_false]

/-- A memory with nothing listed reads as 0 everywhere (R51). -/
@[simp] theorem Memory.readWord_nil (a : Nat) : Memory.readWord [] a = 0#32 := by
  simp [Memory.readWord, Memory.readByte]

/-! ## Extent -/

theorem Memory.inside_iff {m : Memory} {n : Nat} :
    m.inside n = true ↔ ∀ c ∈ m, c.1 < 4 * n := by simp [Memory.inside]

theorem Memory.inside_writeByte {m : Memory} {n a : Nat} (v : Byte) (h : m.inside n = true)
    (ha : a < 4 * n) : (m.writeByte a v).inside n = true := by
  rw [Memory.inside_iff] at *
  intro c hc
  rcases Memory.mem_writeByte hc with hc | rfl
  · exact h c hc
  · exact ha

/-- A word write inside memory lists no cell outside it. -/
theorem Memory.inside_writeWord {m : Memory} {n a : Nat} (v : Word) (h : m.inside n = true)
    (ha : a < n) : (m.writeWord a v).inside n = true := by
  unfold Memory.writeWord
  repeat (first | exact h | apply Memory.inside_writeByte)
  all_goals omega

end Sys2Proof.Machine
end

