-- ==== Sys2Proof/Laws/Step.lean ====
section
/-! SUPPORT. Laws/Step.lean: what the shared operations of the meanings can do, and what a step can do,
each said once. -/

namespace Sys2Proof.Machine

/-! ## Memory accesses (R52) -/

theorem State.memRead_inside {s : State} {a : Nat} (h : a < s.params.memSize) :
    s.memRead a = .ok (s.mem.readWord a) := if_pos h

theorem State.memRead_outside {s : State} {a : Nat} (h : ¬ a < s.params.memSize) :
    s.memRead a = .error .memBounds := if_neg h

theorem State.memWrite_inside {s : State} {a : Nat} {v : Word} (h : a < s.params.memSize) :
    s.memWrite a v = .ok { s with mem := s.mem.writeWord a v } := if_pos h

theorem State.memWrite_outside {s : State} {a : Nat} {v : Word} (h : ¬ a < s.params.memSize) :
    s.memWrite a v = .error .memBounds := if_neg h

theorem State.fetch_inside {s : State} (h : s.pc < s.params.memSize) :
    s.fetch = some (s.mem.readWord s.pc) := if_pos h

theorem State.fetch_outside {s : State} (h : ¬ s.pc < s.params.memSize) : s.fetch = none := if_neg h

theorem State.fetch_eq_some {s : State} {w : Word} :
    s.fetch = some w ↔ s.pc < s.params.memSize ∧ s.mem.readWord s.pc = w := by
  unfold State.fetch; split <;> simp_all

/-! ## Ending an instruction -/

@[simp] theorem State.complete_ok (s t : State) : s.complete (.ok t) = .next t := rfl

@[simp] theorem State.complete_error (s : State) (f : FaultReason) :
    s.complete (.error f) = .next (s.raise f) := rfl

/-! ## The flag unit -/

@[simp] theorem FlagUpdate.none_apply (f : Flags) : FlagUpdate.none.apply f = f := rfl

@[simp] theorem FlagUpdate.all_apply (g f : Flags) : (FlagUpdate.all g).apply f = g := rfl

/-! ## Meanings with a case split -/

theorem execCargar_inside {s : State} {r : Reg} {addr : Field11} (h : address addr < s.params.memSize) :
    execCargar r addr s = .next (s.setReg r (s.mem.readWord (address addr))).advance := by
  simp [execCargar, State.memRead_inside h, Except.map]

theorem execCargar_outside {s : State} {r : Reg} {addr : Field11}
    (h : ¬ address addr < s.params.memSize) : execCargar r addr s = .next (s.raise .memBounds) := by
  simp [execCargar, State.memRead_outside h, Except.map]

theorem execAlmacenar_inside {s : State} {r : Reg} {addr : Field11}
    (h : address addr < s.params.memSize) : execAlmacenar r addr s =
      .next { s with mem := s.mem.writeWord (address addr) (s.x.get r), pc := s.pc + 1 } := by
  simp [execAlmacenar, State.memWrite_inside h, Except.map, State.advance]

theorem execAlmacenar_outside {s : State} {r : Reg} {addr : Field11}
    (h : ¬ address addr < s.params.memSize) : execAlmacenar r addr s = .next (s.raise .memBounds) := by
  simp [execAlmacenar, State.memWrite_outside h, Except.map]

theorem execDiv_zero {s : State} {r1 r2 : Reg} (h : s.x.get r2 = 0#32) :
    execDiv r1 r2 s = .next (s.raise .divByZero) := if_pos h

theorem execDiv_nonzero {s : State} {r1 r2 : Reg} (h : s.x.get r2 ≠ 0#32) :
    execDiv r1 r2 s = .next ((s.setReg2 r1 (quotient (s.x.get r1) (s.x.get r2)) r2
      (remainder (s.x.get r1) (s.x.get r2))).updateFlags .div (s.x.get r1) (s.x.get r2)).advance := if_neg h

theorem execMod_zero {s : State} {r1 r2 : Reg} (h : s.x.get r2 = 0#32) :
    execMod r1 r2 s = .next (s.report .modByZero).advance := if_pos h

theorem execMod_nonzero {s : State} {r1 r2 : Reg} (h : s.x.get r2 ≠ 0#32) :
    execMod r1 r2 s = .next ((s.setReg r1 (remainder (s.x.get r1) (s.x.get r2))).updateFlags .mod
      (s.x.get r1) (s.x.get r2)).advance := if_neg h

/-! ## One step -/

theorem step_running {s : State} (h : s.run = .running) : step s = cycle s := by simp [step, h]

/-- The four ways a running engine makes a cycle (R101). -/
theorem cycle_cases (s : State) :
    (s.params.memSize ≤ s.pc ∧ cycle s = .next (s.halt .endOfMemory)) ∨
    (s.pc < s.params.memSize ∧ decode s.params.opc (s.mem.readWord s.pc) = none ∧
      cycle s = .next (s.report .unrecognizedOpcode).advance) ∨
    (s.pc < s.params.memSize ∧ ∃ i, decode s.params.opc (s.mem.readWord s.pc) = some i ∧
      cycle s = exec i s) := by
  by_cases h : s.pc < s.params.memSize
  · right
    cases hd : decode s.params.opc (s.mem.readWord s.pc) with
    | none => exact .inl ⟨h, rfl, by simp [cycle, State.fetch_inside h, hd, unrecognizedCycle]⟩
    | some i => exact .inr ⟨h, i, rfl, by simp [cycle, State.fetch_inside h, hd]⟩
  · exact .inl ⟨by omega, by simp [cycle, State.fetch_outside h]⟩

/-- A step to a next state was a cycle of a running engine (R32). -/
theorem step_next {s t : State} (h : step s = .next t) : s.run = .running ∧ cycle s = .next t := by
  cases hr : s.run with
  | running => exact ⟨rfl, by rwa [step_running hr] at h⟩
  | halted reason => simp [step, hr] at h
  | faulted reason pc => simp [step, hr] at h

/-- `withFetchWord` on a whole word. -/
theorem withFetchWord_word (s : State) (w : Word) :
    s.withFetchWord 32 w.toNat = placeAtFetch s w := by
  rw [State.withFetchWord, Nat.mod_eq_of_lt w.isLt, BitVec.ofNat_toNat, BitVec.setWidth_eq]

end Sys2Proof.Machine
end

