-- ==== Sys2Proof/Laws/Exec.lean ====
section
/-! SUPPORT. Laws/Exec.lean: everything an executed instruction can do, said once. -/

namespace Sys2Proof.Machine

/-- The register-and-flag effect of an instruction that completes with `pc + 1` and stores nothing: only
listed registers, only listed flags. -/
structure OnlyRegsAndFlags (i : Instr) (s t : State) : Prop where
  regs : ∀ r, r ∉ writtenRegs i → t.x.get r = s.x.get r
  flagsCZN : ¬ writesCZN i → t.flags.C = s.flags.C ∧ t.flags.Z = s.flags.Z ∧ t.flags.N = s.flags.N
  flagsPV : ¬ writesPV i → t.flags.P = s.flags.P ∧ t.flags.V = s.flags.V
  pc : t.pc = s.pc + 1
  rest : t.params = s.params ∧ t.mem = s.mem ∧ t.run = s.run ∧ t.log = s.log

/-- The six things an instruction can do when it answers a next state. -/
inductive ExecCase (i : Instr) (s t : State) : Prop where
  /-- `PARAR` halts. -/
  | halts (hi : i = .parar) (ht : t = s.halt .haltWord)
  /-- A `DIV` by 0 or an access past memory faults. -/
  | faults (reason : FaultReason) (ht : t = s.raise reason)
      (hi : (reason = .divByZero ∧ ∃ r1 r2, i = .div r1 r2 ∧ s.x.get r2 = 0#32) ∨
        (reason = .memBounds ∧ ∃ r addr, (i = .cargar r addr ∨ i = .almacenar r addr) ∧
          s.params.memSize ≤ address addr))
  /-- A `MOD` by 0 is reported. -/
  | reports (r1 r2 : Reg) (hi : i = .mod r1 r2) (h0 : s.x.get r2 = 0#32)
      (ht : t = (s.report .modByZero).advance)
  /-- A jump sets `pc`. -/
  | jumps (cond : Bool) (target : Field11) (hi : jumpOf s.flags i = some (cond, target))
      (ht : t = s.jumpIf cond target)
  /-- `ALMACENAR` stores a word. -/
  | stores (r : Reg) (addr : Field11) (hi : i = .almacenar r addr)
      (ha : address addr < s.params.memSize)
      (ht : t = { s with mem := s.mem.writeWord (address addr) (s.x.get r), pc := s.pc + 1 })
  /-- Every other completion writes listed registers and flags. -/
  | computes (only : OnlyRegsAndFlags i s t) (hj : jumpOf s.flags i = none) (hp : i ≠ .parar)
      (hs : ∀ r addr, i ≠ .almacenar r addr)
      (hl : ∀ r addr, i = .cargar r addr → address addr < s.params.memSize)
      (hd : ∀ r1 r2, i = .div r1 r2 ∨ i = .mod r1 r2 → s.x.get r2 ≠ 0#32)

/-- A register left out of the two written ones keeps its value. -/
theorem Regs.get_set2_other (x : Regs) {r1 r2 r : Reg} (v1 v2 : Word) (h1 : r ≠ r1) (h2 : r ≠ r2) :
    (x.set2 r1 v1 r2 v2).get r = x.get r := by simp [Regs.get_set2, h1, h2]

/-- Everything an instruction can do when it answers a next state. -/
theorem exec_cases {i : Instr} {s t : State} (h : exec i s = .next t) : ExecCase i s t := by
  have fin : ∀ {u : State}, Host.Outcome.next (φ := Fault) (ρ := Refusal) u = .next t → u = t :=
    fun e => by injection e
  cases i with
  | parar => exact .halts rfl (fin h).symm
  | cargar r addr =>
    by_cases ha : address addr < s.params.memSize
    · rw [exec, execCargar_inside ha] at h
      obtain rfl := fin h
      exact .computes ⟨fun r' hr => Regs.get_set_other _ _ (by simpa [writtenRegs] using hr),
        fun _ => ⟨rfl, rfl, rfl⟩, fun _ => ⟨rfl, rfl⟩, rfl, rfl, rfl, rfl, rfl⟩ rfl
        (by simp) (by simp) (fun _ _ e => by injection e with _ e; exact e ▸ ha) (by simp)
    · rw [exec, execCargar_outside ha] at h
      exact .faults .memBounds (fin h).symm (.inr ⟨rfl, r, addr, .inl rfl, by omega⟩)
  | almacenar r addr =>
    by_cases ha : address addr < s.params.memSize
    · rw [exec, execAlmacenar_inside ha] at h
      exact .stores r addr rfl ha (fin h).symm
    · rw [exec, execAlmacenar_outside ha] at h
      exact .faults .memBounds (fin h).symm (.inr ⟨rfl, r, addr, .inr rfl, by omega⟩)
  | saltar target => exact .jumps _ _ rfl (fin h).symm
  | jZero target => exact .jumps _ _ rfl (fin h).symm
  | jPos target => exact .jumps _ _ rfl (fin h).symm
  | jNeg target => exact .jumps _ _ rfl (fin h).symm
  | jPar target => exact .jumps _ _ rfl (fin h).symm
  | jCarry target => exact .jumps _ _ rfl (fin h).symm
  | jOvf target => exact .jumps _ _ rfl (fin h).symm
  | jNovf target => exact .jumps _ _ rfl (fin h).symm
  | div r1 r2 =>
    by_cases hb : s.x.get r2 = 0#32
    · rw [exec, execDiv_zero hb] at h
      exact .faults .divByZero (fin h).symm (.inl ⟨rfl, r1, r2, rfl, hb⟩)
    · rw [exec, execDiv_nonzero hb] at h
      obtain rfl := fin h
      refine .computes ⟨fun r' hr => ?_, fun hf => (hf ⟨r1, r2, by simp⟩).elim,
        fun hf => (hf ⟨r1, r2, by simp⟩).elim, rfl, rfl, rfl, rfl, rfl⟩ rfl (by simp) (by simp)
        (by simp) (fun _ _ e => ?_)
      · obtain ⟨h1, h2⟩ : r' ≠ r1 ∧ r' ≠ r2 := by simpa [writtenRegs] using hr
        exact Regs.get_set2_other _ _ _ h1 h2
      · rcases e with e | e
        · injection e with _ e; exact e ▸ hb
        · cases e
  | mod r1 r2 =>
    by_cases hb : s.x.get r2 = 0#32
    · rw [exec, execMod_zero hb] at h
      exact .reports r1 r2 rfl hb (fin h).symm
    · rw [exec, execMod_nonzero hb] at h
      obtain rfl := fin h
      refine .computes ⟨fun r' hr => Regs.get_set_other _ _ (by simpa [writtenRegs] using hr),
        fun hf => (hf ⟨r1, r2, by simp⟩).elim, fun hf => (hf ⟨r1, r2, by simp⟩).elim, rfl, rfl, rfl,
        rfl, rfl⟩ rfl (by simp) (by simp) (by simp) (fun _ _ e => ?_)
      rcases e with e | e
      · cases e
      · injection e with _ e; exact e ▸ hb
  | sumar r1 r2 =>
    obtain rfl := fin h
    exact .computes ⟨fun r' hr => Regs.get_set_other _ _ (by simpa [writtenRegs] using hr),
      fun hf => (hf ⟨r1, r2, by simp⟩).elim, fun hf => (hf ⟨r1, r2, by simp⟩).elim, rfl, rfl, rfl,
      rfl, rfl⟩ rfl (by simp) (by simp) (by simp) (by simp)
  | restar r1 r2 =>
    obtain rfl := fin h
    exact .computes ⟨fun r' hr => Regs.get_set_other _ _ (by simpa [writtenRegs] using hr),
      fun hf => (hf ⟨r1, r2, by simp⟩).elim, fun hf => (hf ⟨r1, r2, by simp⟩).elim, rfl, rfl, rfl,
      rfl, rfl⟩ rfl (by simp) (by simp) (by simp) (by simp)
  | mult r1 r2 =>
    obtain rfl := fin h
    exact .computes ⟨fun r' hr => Regs.get_set_other _ _ (by simpa [writtenRegs] using hr),
      fun hf => (hf ⟨r1, r2, by simp⟩).elim, fun hf => (hf ⟨r1, r2, by simp⟩).elim, rfl, rfl, rfl,
      rfl, rfl⟩ rfl (by simp) (by simp) (by simp) (by simp)
  | comp r1 r2 =>
    obtain rfl := fin h
    exact .computes ⟨fun _ _ => rfl, fun hf => (hf ⟨r1, r2, by simp⟩).elim, fun _ => ⟨rfl, rfl⟩, rfl,
      rfl, rfl, rfl, rfl⟩ rfl (by simp) (by simp) (by simp) (by simp)
  | intercambiar r1 r2 =>
    obtain rfl := fin h
    refine .computes ⟨fun r' hr => ?_, fun _ => ⟨rfl, rfl, rfl⟩, fun _ => ⟨rfl, rfl⟩, rfl, rfl, rfl,
      rfl, rfl⟩ rfl (by simp) (by simp) (by simp) (by simp)
    obtain ⟨h1, h2⟩ : r' ≠ r1 ∧ r' ≠ r2 := by simpa [writtenRegs] using hr
    exact Regs.get_set2_other _ _ _ h1 h2
  | _ =>
    obtain rfl := fin h
    exact .computes ⟨fun r' hr => Regs.get_set_other _ _ (by simpa [writtenRegs] using hr),
      fun _ => ⟨rfl, rfl, rfl⟩, fun _ => ⟨rfl, rfl⟩, rfl, rfl, rfl, rfl, rfl⟩ rfl (by simp) (by simp)
      (by simp) (by simp)

end Sys2Proof.Machine
end

