-- ==== Sys2Proof/Laws/Loader.lean ====
section
/-! SUPPORT. Laws/Loader.lean: everything a relocation and the loader's loop can do. -/

namespace Sys2Proof.Machine

/-- What a relocation that succeeds gives (R253). -/
theorem relocate_some {opc : Opc} {base : Nat} {w w' : Word} (h : relocate opc base w = some w') :
    (memoryReferencing opc w = true ∧ base + (fieldLow w).toNat ≤ 2047 ∧
      fieldOpC w' = fieldOpC w ∧ (fieldLow w').toNat = base + (fieldLow w).toNat) ∨
    (memoryReferencing opc w = false ∧ w' = w) := by
  unfold relocate at h
  cases hm : memoryReferencing opc w
  · rw [hm] at h; right; exact ⟨rfl, (Option.some.inj h).symm⟩
  · rw [hm] at h
    simp only [if_true] at h
    split at h
    · cases h
    · next hle =>
      cases h; left
      have e : withLowField w (relocatedAddress base w) =
        packC (fieldOpC w) (BitVec.ofNat 11 (relocatedAddress base w)) := rfl
      simp only [relocatedAddress, address] at *
      refine ⟨trivial, by omega, by rw [e, fieldOpC_packC], ?_⟩
      rw [e, fieldLow_packC, BitVec.toNat_ofNat]; omega

/-- Relocation by 0 leaves a word as it is (R253). -/
theorem relocate_zero {opc : Opc} {w w' : Word} (h : relocate opc 0 w = some w') : w' = w := by
  rcases relocate_some h with ⟨-, -, hc, ha⟩ | ⟨-, rfl⟩
  · have hl : fieldLow w' = fieldLow w := BitVec.eq_of_toNat_eq (by rw [ha, Nat.zero_add])
    rw [← packC_fields w', hc, hl, packC_fields]
  · rfl

/-- When a relocation fails (R254). -/
theorem relocate_none {opc : Opc} {base : Nat} {w : Word} : relocate opc base w = none ↔
    memoryReferencing opc w = true ∧ base + (fieldLow w).toNat > 2047 := by
  unfold relocate; simp only [relocatedAddress, address]
  cases memoryReferencing opc w <;> simp

/-- What the loop gives when it succeeds (R252). -/
theorem loadFrom_ok {p : Params} {base index : Nat} {mem m : Memory} {words : List Word}
    (hw : mem.wf = true) (h : loadFrom p base index mem words = .ok m) :
    m.wf = true ∧
    (∀ (i : Nat) (w : Word), words[i]? = some w →
      relocate p.opc base w = some (m.readWord (base + index + i)) ∧ base + index + i < p.memSize) ∧
    ∀ a, (a < base + index ∨ base + index + words.length ≤ a) → m.readWord a = mem.readWord a := by
  induction words generalizing index mem with
  | nil => cases h; simp [hw]
  | cons w rest ih =>
    simp only [loadFrom] at h
    split at h
    · cases h
    · next w' hr =>
      split at h
      · next hlt =>
        obtain ⟨h1, h2, h3⟩ := ih (Memory.wf_writeWord _ _ hw) h
        refine ⟨h1, fun i v hi => ?_, fun a ha => ?_⟩
        · cases i with
          | zero =>
            rw [List.getElem?_cons_zero] at hi
            cases hi
            refine ⟨?_, hlt⟩
            rw [hr, h3 _ (by omega), Memory.readWord_writeWord _ _ _ hw]; simp
          | succ i =>
            rw [show base + index + (i + 1) = base + (index + 1) + i by omega]
            exact h2 i v (by simpa using hi)
        · rw [List.length_cons] at ha
          rw [h3 a (by omega), Memory.readWord_writeWord _ _ _ hw, if_neg (by omega)]
      · cases h

/-- When the loop fails (R254). -/
theorem loadFrom_error {p : Params} {base index : Nat} {mem : Memory} {words : List Word} :
    (∃ e, loadFrom p base index mem words = .error e) ↔
    ∃ (i : Nat) (w : Word), words[i]? = some w ∧
      (p.memSize ≤ base + index + i ∨ relocate p.opc base w = none) := by
  induction words generalizing index mem with
  | nil => simp [loadFrom]
  | cons w rest ih =>
    have shift : ∀ i, base + index + (i + 1) = base + (index + 1) + i := fun i => by omega
    simp only [loadFrom]
    split
    · next h => exact ⟨fun _ => ⟨0, w, rfl, .inr h⟩, fun _ => ⟨_, rfl⟩⟩
    · next w' h =>
      split
      · next hl =>
        rw [ih]
        constructor
        · rintro ⟨i, v, hi, hv⟩
          exact ⟨i + 1, v, by simpa using hi, by rw [shift]; exact hv⟩
        · rintro ⟨_ | i, v, hi, hv⟩
          · rw [List.getElem?_cons_zero] at hi
            cases hi
            rcases hv with hv | hv
            · omega
            · rw [hv] at h; cases h
          · exact ⟨i, v, by simpa using hi, by rw [← shift]; exact hv⟩
      · exact ⟨fun _ => ⟨0, w, rfl, .inl (by omega)⟩, fun _ => ⟨_, rfl⟩⟩

end Sys2Proof.Machine
end

