-- ==== Sys2Proof/Laws/PerInstr.lean ====
section
/-! SUPPORT. Laws/PerInstr.lean: statements about every instruction as syntax, one lemma per
constructor. -/

namespace Sys2Proof.Laws.TupleForm

/-- The decoder's tuple form of an instruction keeps its operation and every operand (R36). -/
def Statement (i : Instr) : Prop := i.decoded.instr? = some i

theorem parar : Statement (.parar) := rfl
theorem cargar (r : Reg) (addr : Field11) : Statement (.cargar r addr) := rfl
theorem almacenar (r : Reg) (addr : Field11) : Statement (.almacenar r addr) := rfl
theorem lsl (r : Reg) (k : Field11) : Statement (.lsl r k) := rfl
theorem lsr (r : Reg) (k : Field11) : Statement (.lsr r k) := rfl
theorem asr (r : Reg) (k : Field11) : Statement (.asr r k) := rfl
theorem cargarValor (r : Reg) (k : Field11) : Statement (.cargarValor r k) := rfl
theorem rotacionL (r : Reg) (k : Field11) : Statement (.rotacionL r k) := rfl
theorem rotacionR (r : Reg) (k : Field11) : Statement (.rotacionR r k) := rfl
theorem saltar (target : Field11) : Statement (.saltar target) := rfl
theorem jZero (target : Field11) : Statement (.jZero target) := rfl
theorem jPos (target : Field11) : Statement (.jPos target) := rfl
theorem jNeg (target : Field11) : Statement (.jNeg target) := rfl
theorem jPar (target : Field11) : Statement (.jPar target) := rfl
theorem jCarry (target : Field11) : Statement (.jCarry target) := rfl
theorem jOvf (target : Field11) : Statement (.jOvf target) := rfl
theorem jNovf (target : Field11) : Statement (.jNovf target) := rfl
theorem or (r1 r2 : Reg) : Statement (.or r1 r2) := rfl
theorem and (r1 r2 : Reg) : Statement (.and r1 r2) := rfl
theorem xor (r1 r2 : Reg) : Statement (.xor r1 r2) := rfl
theorem not (r1 r2 : Reg) : Statement (.not r1 r2) := rfl
theorem sumar (r1 r2 : Reg) : Statement (.sumar r1 r2) := rfl
theorem restar (r1 r2 : Reg) : Statement (.restar r1 r2) := rfl
theorem mult (r1 r2 : Reg) : Statement (.mult r1 r2) := rfl
theorem div (r1 r2 : Reg) : Statement (.div r1 r2) := rfl
theorem copiar (r1 r2 : Reg) : Statement (.copiar r1 r2) := rfl
theorem comp (r1 r2 : Reg) : Statement (.comp r1 r2) := rfl
theorem intercambiar (r1 r2 : Reg) : Statement (.intercambiar r1 r2) := rfl
theorem mod (r1 r2 : Reg) : Statement (.mod r1 r2) := rfl

end Sys2Proof.Laws.TupleForm

namespace Sys2Proof.Laws.ReferenceEncodable

/-- The reference assignment has a key for the instruction's operation (R82). -/
def Statement (i : Instr) : Prop := (encode opcRef i).isSome = true

theorem parar : Statement (.parar) := rfl
theorem cargar (r : Reg) (addr : Field11) : Statement (.cargar r addr) := rfl
theorem almacenar (r : Reg) (addr : Field11) : Statement (.almacenar r addr) := rfl
theorem lsl (r : Reg) (k : Field11) : Statement (.lsl r k) := rfl
theorem lsr (r : Reg) (k : Field11) : Statement (.lsr r k) := rfl
theorem asr (r : Reg) (k : Field11) : Statement (.asr r k) := rfl
theorem cargarValor (r : Reg) (k : Field11) : Statement (.cargarValor r k) := rfl
theorem rotacionL (r : Reg) (k : Field11) : Statement (.rotacionL r k) := rfl
theorem rotacionR (r : Reg) (k : Field11) : Statement (.rotacionR r k) := rfl
theorem saltar (target : Field11) : Statement (.saltar target) := rfl
theorem jZero (target : Field11) : Statement (.jZero target) := rfl
theorem jPos (target : Field11) : Statement (.jPos target) := rfl
theorem jNeg (target : Field11) : Statement (.jNeg target) := rfl
theorem jPar (target : Field11) : Statement (.jPar target) := rfl
theorem jCarry (target : Field11) : Statement (.jCarry target) := rfl
theorem jOvf (target : Field11) : Statement (.jOvf target) := rfl
theorem jNovf (target : Field11) : Statement (.jNovf target) := rfl
theorem or (r1 r2 : Reg) : Statement (.or r1 r2) := rfl
theorem and (r1 r2 : Reg) : Statement (.and r1 r2) := rfl
theorem xor (r1 r2 : Reg) : Statement (.xor r1 r2) := rfl
theorem not (r1 r2 : Reg) : Statement (.not r1 r2) := rfl
theorem sumar (r1 r2 : Reg) : Statement (.sumar r1 r2) := rfl
theorem restar (r1 r2 : Reg) : Statement (.restar r1 r2) := rfl
theorem mult (r1 r2 : Reg) : Statement (.mult r1 r2) := rfl
theorem div (r1 r2 : Reg) : Statement (.div r1 r2) := rfl
theorem copiar (r1 r2 : Reg) : Statement (.copiar r1 r2) := rfl
theorem comp (r1 r2 : Reg) : Statement (.comp r1 r2) := rfl
theorem intercambiar (r1 r2 : Reg) : Statement (.intercambiar r1 r2) := rfl
theorem mod (r1 r2 : Reg) : Statement (.mod r1 r2) := rfl

end Sys2Proof.Laws.ReferenceEncodable
end

