-- ==== Sys2Proof/Tests/Slice0.lean ====
section
/-! SUPPORT. Tests/Slice0.lean: ill-formed terms that each check refuses, words written out from the
spec's encodings, one-step tests on the vectors of `95_test_vectors.md` (each test is named after its
vector), and a witness for the hypotheses of every obligation. -/

namespace Sys2Proof.Tests

open Sys2Proof.Machine Sys2Proof.Claims

/-! ## Helpers -/

/-- Flags in the order the vectors write them: C, Z, N, P, V. -/
def fl (c z n p v : Nat) : Flags :=
  ⟨decide (c = 1), decide (z = 1), decide (n = 1), decide (p = 1), decide (v = 1)⟩

/-- Registers that are 0 but for those listed. -/
def regs (l : List (Reg × Word)) : Regs :=
  l.foldl (fun x e => x.set e.1 e.2) ⟨0, 0, 0, 0, 0, 0, 0, 0⟩

/-- Memory that is 0 but for the words listed. -/
def image (l : List (Nat × Word)) : Memory := l.foldl (fun m e => m.writeWord e.1 e.2) []

def ref : Params := Params.reference
def small : Params := { Params.reference with memSize := 64 }
def masked : Params := { Params.reference with zeroBasis := .masked }
def notR2 : Params := { Params.reference with notOperand := .r2 }

/-- The start of a vector: parameters, registers, flags, `pc`, memory, and the word at `pc`. -/
def start (p : Params) (x : List (Reg × Word)) (f : Flags) (pc : Nat) (m : List (Nat × Word))
    (w : Word) : State :=
  State.launch p (regs x) f 0 ((image m).writeWord pc w) pc

/-- The next state, if there is one. -/
def stepped (s : State) : Option State :=
  match step s with
  | .next t => some t
  | .fault _ => none
  | .refused _ => none

/-- One step gives a next state with the given property. -/
abbrev After (s : State) (P : State → Prop) : Prop := ∃ t, t ∈ stepped s ∧ P t

theorem step_of_stepped {s t : State} (h : t ∈ stepped s) : step s = .next t := by
  unfold stepped at h
  split at h
  · next e => rw [e, Option.some.inj h]
  · cases h
  · cases h

/-! ## Ill-formed terms -/

/-- `OPC_REF` with other tables. -/
def withAB (t : List (BitVec 18 × OpAB)) : Opc := { opcRef with tabAB := t }
def withC (t : List (BitVec 21 × OpC)) : Opc := { opcRef with tabC := t }
def withD (t : List (BitVec 26 × OpD)) : Opc := { opcRef with tabD := t }

/-- The reference assignment meets W1 to W4. -/
theorem test_opcRef_legal : opcRef.legal = true ∧ opcRef.W4 = true := by decide

/-- W1 refuses a missing operation, in each table. -/
theorem test_W1_missing :
    (withAB opcRef.tabAB.tail).W1 = false ∧ (withC opcRef.tabC.tail).W1 = false ∧
    (withD opcRef.tabD.tail).W1 = false := by decide

/-- W1 refuses an operation listed twice, and a key used twice. -/
theorem test_W1_twice :
    (withC ((0x50, .saltar) :: opcRef.tabC)).W1 = false ∧
    (withC ((0x49, .saltar) :: opcRef.tabC.tail)).W1 = false := by decide

/-- W2 refuses a C key whose top 18 bits are an A/B key. -/
theorem test_W2_overlap :
    (withC ((0x8, .saltar) :: opcRef.tabC.tail)).W2 = false ∧
    (withC ((0x8, .saltar) :: opcRef.tabC.tail)).W1 = true := by decide

/-- W3 refuses a D key under an A/B key, and one under a C key. -/
theorem test_W3_overlap :
    (withD ((0x100, .or) :: opcRef.tabD.tail)).W3 = false ∧
    (withD ((0x900, .or) :: opcRef.tabD.tail)).W3 = false := by decide

/-- W4 is refused by a key 0, which stays legal. -/
theorem test_W4_zero_key :
    (withAB ((0x0, .a .cargar) :: opcRef.tabAB.tail)).W4 = false ∧
    (withAB ((0x0, .a .cargar) :: opcRef.tabAB.tail)).legal = true := by decide

/-- Parameters need at least one word of memory and a legal assignment. -/
theorem test_params :
    ref.wellFormed = true ∧ Params.wellFormed { ref with memSize := 0 } = false ∧
    Params.wellFormed { ref with opc := withC [] } = false := by decide

/-- An instruction needs a key, and must not encode to the halt word. -/
theorem test_instr :
    Instr.wellFormed (withC []) (.saltar 0) = false ∧
    Instr.wellFormed (withAB ((0x0, .a .cargar) :: opcRef.tabAB.tail)) (.cargar .R0 0) = false ∧
    Instr.wellFormed (withAB ((0x0, .a .cargar) :: opcRef.tabAB.tail)) (.cargar .R0 1) = true ∧
    Instr.wellFormed opcRef .parar = true := by decide

def fixed : List Token := fixedMnemonics.map (·.1)

/-- The spec's labels are legal spellings; two equal ones, one of another operation, a blank one and
one with a space are not. -/
theorem test_spellings :
    JmpMnemonics.reference.wellFormed fixed = true ∧
    JmpMnemonics.wellFormed { JmpMnemonics.reference with jPos := "J_ZERO".toList } fixed = false ∧
    JmpMnemonics.wellFormed { JmpMnemonics.reference with jPos := "SUMAR".toList } fixed = false ∧
    JmpMnemonics.wellFormed { JmpMnemonics.reference with jPos := [] } fixed = false ∧
    JmpMnemonics.wellFormed { JmpMnemonics.reference with jPos := "J POS".toList } fixed = false := by
  decide

/-! ## Words written out from the spec's encodings (opcode table; R71 to R75, R82) -/

theorem test_decode_formatHalt :
    decode opcRef 0b00000000000000000000000000000000 = some .parar := by decide

theorem test_decode_formatA :
    decode opcRef 0b000000000000000001_101_10000000101 = some (.cargar .R5 1029) ∧
    decode opcRef 0b000000000000000010_101_10000000101 = some (.almacenar .R5 1029) := by decide

theorem test_decode_formatB :
    decode opcRef 0b000000000000000011_101_10000000101 = some (.lsl .R5 1029) ∧
    decode opcRef 0b000000000000000100_101_10000000101 = some (.lsr .R5 1029) ∧
    decode opcRef 0b000000000000000101_101_10000000101 = some (.asr .R5 1029) ∧
    decode opcRef 0b000000000000000110_101_10000000101 = some (.cargarValor .R5 1029) ∧
    decode opcRef 0b000000000000000111_101_10000000101 = some (.rotacionL .R5 1029) ∧
    decode opcRef 0b000000000000001000_101_10000000101 = some (.rotacionR .R5 1029) := by decide

theorem test_decode_formatC :
    decode opcRef 0b000000000000001001000_10000000101 = some (.saltar 1029) ∧
    decode opcRef 0b000000000000001001001_10000000101 = some (.jZero 1029) ∧
    decode opcRef 0b000000000000001001010_10000000101 = some (.jPos 1029) ∧
    decode opcRef 0b000000000000001001011_10000000101 = some (.jNeg 1029) ∧
    decode opcRef 0b000000000000001001100_10000000101 = some (.jPar 1029) ∧
    decode opcRef 0b000000000000001001101_10000000101 = some (.jCarry 1029) ∧
    decode opcRef 0b000000000000001001110_10000000101 = some (.jOvf 1029) ∧
    decode opcRef 0b000000000000001001111_10000000101 = some (.jNovf 1029) := by decide

theorem test_decode_formatD :
    decode opcRef 0b00000000000000101000000000_101_011 = some (.or .R5 .R3) ∧
    decode opcRef 0b00000000000000101000000001_101_011 = some (.and .R5 .R3) ∧
    decode opcRef 0b00000000000000101000000010_101_011 = some (.xor .R5 .R3) ∧
    decode opcRef 0b00000000000000101000000011_101_011 = some (.not .R5 .R3) ∧
    decode opcRef 0b00000000000000101000000100_101_011 = some (.sumar .R5 .R3) ∧
    decode opcRef 0b00000000000000101000000101_101_011 = some (.restar .R5 .R3) ∧
    decode opcRef 0b00000000000000101000000110_101_011 = some (.mult .R5 .R3) ∧
    decode opcRef 0b00000000000000101000000111_101_011 = some (.div .R5 .R3) ∧
    decode opcRef 0b00000000000000101000001000_101_011 = some (.copiar .R5 .R3) ∧
    decode opcRef 0b00000000000000101000001001_101_011 = some (.comp .R5 .R3) ∧
    decode opcRef 0b00000000000000101000001010_101_011 = some (.intercambiar .R5 .R3) ∧
    decode opcRef 0b00000000000000101000001011_101_011 = some (.mod .R5 .R3) := by decide

/-- Section 2 of the vectors: words just outside the tables (DEC-2, DEC-3, DEC-23, DEC-25 to
DEC-28). -/
theorem test_decode_unrecognized :
    [0x00000001, 0x00003FFF, 0x00028300, 0x00040000, 0x80004000, 0x7FFFFFFF, 0xFFFFFFFF].all
      (fun w => decide (classify opcRef w = .unrecognized)) = true := by decide

/-- Words the assembler section gives (ASM-2, ASM-4, ASM-9, ASM-10), encoded. -/
theorem test_encode :
    encode opcRef (.almacenar .R1 20) = some 0x00008814 ∧
    encode opcRef (.rotacionR .R3 2047) = some 0x00021FFF ∧
    encode opcRef (.not .R7 .R0) = some 0x000280F8 ∧
    encode opcRef (.intercambiar .R7 .R0) = some 0x000282B8 := by decide

/-- The table interface: one 32-bit word. -/
theorem test_decodeTableWord :
    decodeTableWord 32 0x28101 = some (.sumar .R0 .R1) ∧ decodeTableWord 32 0 = some .parar ∧
    decodeTableWord 32 1 = none := by decide

/-- A placed word is run by the next step from reset (C-SALTAR-1's word). -/
theorem test_withFetchWord : After (State.reset.withFetchWord 32 0x24005) fun t =>
    t.pc = 5 ∧ t.run = .running := by decide

/-- Under a legal assignment with a key 0 the halt word still comes first (R83). -/
theorem test_halt_before_key_zero :
    decode (withAB ((0x0, .a .cargar) :: opcRef.tabAB.tail)) 0 = some .parar ∧
    decode (withAB ((0x0, .a .cargar) :: opcRef.tabAB.tail)) 1 = some (.cargar .R0 1) := by decide

/-! ## One-step tests -/

/-- A-CARGAR-1: `CARGAR R0 20`. -/
theorem test_a_cargar_1 :
    After (start ref [] (fl 0 0 0 0 0) 0 [(20, 0xDEADBEEF)] 0x4014) fun t =>
      t.x = regs [(.R0, 0xDEADBEEF)] ∧ t.flags = fl 0 0 0 0 0 ∧ t.pc = 1 ∧ t.run = .running ∧
      t.log = [] ∧ t.mem.readWord 20 = 0xDEADBEEF := by decide

/-- A-CARGAR-5: `CARGAR R2 100`. -/
theorem test_a_cargar_5 :
    After (start small [(.R2, 0x9)] (fl 0 0 0 0 0) 0 [] 0x5064) fun t =>
      t.x = regs [(.R2, 0x9)] ∧ t.flags = fl 0 0 0 0 0 ∧ t.pc = 0 ∧ t.run = .faulted
      .memBounds 0 ∧ t.log = [] := by decide

/-- A-ALMACENAR-2: `ALMACENAR R3 1`. -/
theorem test_a_almacenar_2 :
    After (start ref [] (fl 0 0 0 0 0) 0 [(1, 0x18005)] 0x9801) fun t =>
      t.x = regs [] ∧ t.flags = fl 0 0 0 0 0 ∧ t.pc = 1 ∧ t.run = .running ∧ t.log = [] ∧
      t.mem.readWord 1 = 0x0 := by decide

/-- A-ALMACENAR-5: `ALMACENAR R4 64`. -/
theorem test_a_almacenar_5 :
    After (start small [(.R4, 0x1)] (fl 0 0 0 0 0) 0 [] 0xA040) fun t =>
      t.x = regs [(.R4, 0x1)] ∧ t.flags = fl 0 0 0 0 0 ∧ t.pc = 0 ∧ t.run = .faulted
      .memBounds 0 ∧ t.log = [] := by decide

/-- B-LSL-3: `LSL R0 31`. -/
theorem test_b_lsl_3 :
    After (start ref [(.R0, 0x3)] (fl 0 0 0 0 0) 0 [] 0xC01F) fun t =>
      t.x = regs [(.R0, 0x80000000)] ∧ t.flags = fl 0 0 0 0 0 ∧ t.pc = 1 ∧ t.run = .running ∧
      t.log = [] := by decide

/-- B-LSL-4: `LSL R0 32`. -/
theorem test_b_lsl_4 :
    After (start ref [(.R0, 0xFFFFFFFF)] (fl 0 0 0 0 0) 0 [] 0xC020) fun t =>
      t.x = regs [(.R0, 0x0)] ∧ t.flags = fl 0 0 0 0 0 ∧ t.pc = 1 ∧ t.run = .running ∧
      t.log = [] := by decide

/-- B-LSR-1: `LSR R0 1`. -/
theorem test_b_lsr_1 :
    After (start ref [(.R0, 0x80000000)] (fl 0 0 0 0 0) 0 [] 0x10001) fun t =>
      t.x = regs [(.R0, 0x40000000)] ∧ t.flags = fl 0 0 0 0 0 ∧ t.pc = 1 ∧ t.run = .running ∧
      t.log = [] := by decide

/-- B-LSR-3: `LSR R1 32`. -/
theorem test_b_lsr_3 :
    After (start ref [(.R1, 0xFFFFFFFF)] (fl 0 0 0 0 0) 0 [] 0x10820) fun t =>
      t.x = regs [(.R1, 0x0)] ∧ t.flags = fl 0 0 0 0 0 ∧ t.pc = 1 ∧ t.run = .running ∧
      t.log = [] := by decide

/-- B-ASR-1: `ASR R3 4`. -/
theorem test_b_asr_1 :
    After (start ref [(.R3, 0x80000000)] (fl 0 0 0 0 0) 0 [] 0x15804) fun t =>
      t.x = regs [(.R3, 0xF8000000)] ∧ t.flags = fl 0 0 0 0 0 ∧ t.pc = 1 ∧ t.run = .running ∧
      t.log = [] := by decide

/-- B-ASR-5: `ASR R0 2047`. -/
theorem test_b_asr_5 :
    After (start ref [(.R0, 0x80000000)] (fl 0 0 0 0 0) 0 [] 0x147FF) fun t =>
      t.x = regs [(.R0, 0xFFFFFFFF)] ∧ t.flags = fl 0 0 0 0 0 ∧ t.pc = 1 ∧ t.run = .running ∧
      t.log = [] := by decide

/-- B-CARGARVALOR-1: `CARGARVALOR R5 2047`. -/
theorem test_b_cargarvalor_1 :
    After (start ref [(.R5, 0xFFFFFFFF)] (fl 0 0 0 0 0) 0 [] 0x1AFFF) fun t =>
      t.x = regs [(.R5, 0x7FF)] ∧ t.flags = fl 0 0 0 0 0 ∧ t.pc = 1 ∧ t.run = .running ∧
      t.log = [] := by decide

/-- B-CARGARVALOR-3: `CARGARVALOR R3 1`. -/
theorem test_b_cargarvalor_3 :
    After (start ref [(.R3, 0x80000000)] (fl 1 0 1 0 1) 0 [] 0x19801) fun t =>
      t.x = regs [(.R3, 0x1)] ∧ t.flags = fl 1 0 1 0 1 ∧ t.pc = 1 ∧ t.run = .running ∧
      t.log = [] := by decide

/-- B-ROTACIONL-3: `ROTACIONL R0 33`. -/
theorem test_b_rotacionl_3 :
    After (start ref [(.R0, 0x80000000)] (fl 0 0 0 0 0) 0 [] 0x1C021) fun t =>
      t.x = regs [(.R0, 0x1)] ∧ t.flags = fl 0 0 0 0 0 ∧ t.pc = 1 ∧ t.run = .running ∧
      t.log = [] := by decide

/-- B-ROTACIONL-5: `ROTACIONL R0 2047`. -/
theorem test_b_rotacionl_5 :
    After (start ref [(.R0, 0x2)] (fl 0 0 0 0 0) 0 [] 0x1C7FF) fun t =>
      t.x = regs [(.R0, 0x1)] ∧ t.flags = fl 0 0 0 0 0 ∧ t.pc = 1 ∧ t.run = .running ∧
      t.log = [] := by decide

/-- B-ROTACIONR-2: `ROTACIONR R0 8`. -/
theorem test_b_rotacionr_2 :
    After (start ref [(.R0, 0x12345678)] (fl 0 0 0 0 0) 0 [] 0x20008) fun t =>
      t.x = regs [(.R0, 0x78123456)] ∧ t.flags = fl 0 0 0 0 0 ∧ t.pc = 1 ∧ t.run = .running ∧
      t.log = [] := by decide

/-- B-ROTACIONR-5: `ROTACIONR R0 36`. -/
theorem test_b_rotacionr_5 :
    After (start ref [(.R0, 0xF)] (fl 0 0 0 0 0) 0 [] 0x20024) fun t =>
      t.x = regs [(.R0, 0xF0000000)] ∧ t.flags = fl 0 0 0 0 0 ∧ t.pc = 1 ∧ t.run = .running ∧
      t.log = [] := by decide

/-- C-SALTAR-1: `SALTAR 5`. -/
theorem test_c_saltar_1 :
    After (start ref [] (fl 0 0 0 0 0) 2 [] 0x24005) fun t =>
      t.x = regs [] ∧ t.flags = fl 0 0 0 0 0 ∧ t.pc = 5 ∧ t.run = .running ∧ t.log = [] := by decide

/-- C-SALTAR-4: `SALTAR 100`. -/
theorem test_c_saltar_4 :
    After (start small [] (fl 0 0 0 0 0) 0 [] 0x24064) fun t =>
      t.x = regs [] ∧ t.flags = fl 0 0 0 0 0 ∧ t.pc = 100 ∧ t.run = .running ∧ t.log = [] := by decide

/-- C-J_ZERO-1: `J_ZERO 40`. -/
theorem test_c_j_zero_1 :
    After (start ref [] (fl 0 1 0 0 0) 10 [] 0x24828) fun t =>
      t.x = regs [] ∧ t.flags = fl 0 1 0 0 0 ∧ t.pc = 40 ∧ t.run = .running ∧ t.log = [] := by decide

/-- C-J_ZERO-2: `J_ZERO 40`. -/
theorem test_c_j_zero_2 :
    After (start ref [] (fl 1 0 1 1 1) 10 [] 0x24828) fun t =>
      t.x = regs [] ∧ t.flags = fl 1 0 1 1 1 ∧ t.pc = 11 ∧ t.run = .running ∧ t.log = [] := by decide

/-- C-J_POS-1: `J_POS 40`. -/
theorem test_c_j_pos_1 :
    After (start ref [] (fl 0 0 0 0 0) 10 [] 0x25028) fun t =>
      t.x = regs [] ∧ t.flags = fl 0 0 0 0 0 ∧ t.pc = 40 ∧ t.run = .running ∧ t.log = [] := by decide

/-- C-J_POS-2: `J_POS 40`. -/
theorem test_c_j_pos_2 :
    After (start ref [] (fl 1 1 1 1 1) 10 [] 0x25028) fun t =>
      t.x = regs [] ∧ t.flags = fl 1 1 1 1 1 ∧ t.pc = 11 ∧ t.run = .running ∧ t.log = [] := by decide

/-- C-J_NEG-1: `J_NEG 40`. -/
theorem test_c_j_neg_1 :
    After (start ref [] (fl 0 0 1 0 0) 10 [] 0x25828) fun t =>
      t.x = regs [] ∧ t.flags = fl 0 0 1 0 0 ∧ t.pc = 40 ∧ t.run = .running ∧ t.log = [] := by decide

/-- C-J_NEG-2: `J_NEG 40`. -/
theorem test_c_j_neg_2 :
    After (start ref [] (fl 1 1 0 1 1) 10 [] 0x25828) fun t =>
      t.x = regs [] ∧ t.flags = fl 1 1 0 1 1 ∧ t.pc = 11 ∧ t.run = .running ∧ t.log = [] := by decide

/-- C-J_PAR-1: `J_PAR 40`. -/
theorem test_c_j_par_1 :
    After (start ref [] (fl 0 0 0 1 0) 10 [] 0x26028) fun t =>
      t.x = regs [] ∧ t.flags = fl 0 0 0 1 0 ∧ t.pc = 40 ∧ t.run = .running ∧ t.log = [] := by decide

/-- C-J_PAR-2: `J_PAR 40`. -/
theorem test_c_j_par_2 :
    After (start ref [] (fl 1 1 1 0 1) 10 [] 0x26028) fun t =>
      t.x = regs [] ∧ t.flags = fl 1 1 1 0 1 ∧ t.pc = 11 ∧ t.run = .running ∧ t.log = [] := by decide

/-- C-J_CARRY-1: `J_CARRY 40`. -/
theorem test_c_j_carry_1 :
    After (start ref [] (fl 1 0 0 0 0) 10 [] 0x26828) fun t =>
      t.x = regs [] ∧ t.flags = fl 1 0 0 0 0 ∧ t.pc = 40 ∧ t.run = .running ∧ t.log = [] := by decide

/-- C-J_CARRY-2: `J_CARRY 40`. -/
theorem test_c_j_carry_2 :
    After (start ref [] (fl 0 1 1 1 1) 10 [] 0x26828) fun t =>
      t.x = regs [] ∧ t.flags = fl 0 1 1 1 1 ∧ t.pc = 11 ∧ t.run = .running ∧ t.log = [] := by decide

/-- C-J_OVF-1: `J_OVF 40`. -/
theorem test_c_j_ovf_1 :
    After (start ref [] (fl 0 0 0 0 1) 10 [] 0x27028) fun t =>
      t.x = regs [] ∧ t.flags = fl 0 0 0 0 1 ∧ t.pc = 40 ∧ t.run = .running ∧ t.log = [] := by decide

/-- C-J_OVF-2: `J_OVF 40`. -/
theorem test_c_j_ovf_2 :
    After (start ref [] (fl 1 1 1 1 0) 10 [] 0x27028) fun t =>
      t.x = regs [] ∧ t.flags = fl 1 1 1 1 0 ∧ t.pc = 11 ∧ t.run = .running ∧ t.log = [] := by decide

/-- C-J_NOVF-1: `J_NOVF 40`. -/
theorem test_c_j_novf_1 :
    After (start ref [] (fl 1 1 1 1 0) 10 [] 0x27828) fun t =>
      t.x = regs [] ∧ t.flags = fl 1 1 1 1 0 ∧ t.pc = 40 ∧ t.run = .running ∧ t.log = [] := by decide

/-- C-J_NOVF-2: `J_NOVF 40`. -/
theorem test_c_j_novf_2 :
    After (start ref [] (fl 0 0 0 0 1) 10 [] 0x27828) fun t =>
      t.x = regs [] ∧ t.flags = fl 0 0 0 0 1 ∧ t.pc = 11 ∧ t.run = .running ∧ t.log = [] := by decide

/-- D-OR-1: `OR R0 R1`. -/
theorem test_d_or_1 :
    After (start ref [(.R0, 0xF0F0000), (.R1, 0xFF)] (fl 0 0 0 0 0) 0 [] 0x28001) fun t =>
      t.x = regs [(.R0, 0xF0F00FF), (.R1, 0xFF)] ∧ t.flags = fl 0 0 0 0 0 ∧ t.pc = 1 ∧
      t.run = .running ∧ t.log = [] := by decide

/-- D-OR-3: `OR R0 R1`. -/
theorem test_d_or_3 :
    After (start ref [(.R0, 0x0), (.R1, 0x0)] (fl 0 0 0 0 0) 0 [] 0x28001) fun t =>
      t.x = regs [(.R0, 0x0), (.R1, 0x0)] ∧ t.flags = fl 0 0 0 0 0 ∧ t.pc = 1 ∧
      t.run = .running ∧ t.log = [] := by decide

/-- D-AND-1: `AND R2 R3`. -/
theorem test_d_and_1 :
    After (start ref [(.R2, 0xFFFF00FF), (.R3, 0xFFF0)] (fl 0 0 0 0 0) 0 [] 0x28053) fun t =>
      t.x = regs [(.R2, 0xF0), (.R3, 0xFFF0)] ∧ t.flags = fl 0 0 0 0 0 ∧ t.pc = 1 ∧
      t.run = .running ∧ t.log = [] := by decide

/-- D-AND-2: `AND R0 R1`. -/
theorem test_d_and_2 :
    After (start ref [(.R0, 0xF0), (.R1, 0xF)] (fl 0 0 0 0 0) 0 [] 0x28041) fun t =>
      t.x = regs [(.R0, 0x0), (.R1, 0xF)] ∧ t.flags = fl 0 0 0 0 0 ∧ t.pc = 1 ∧
      t.run = .running ∧ t.log = [] := by decide

/-- D-XOR-1: `XOR R4 R4`. -/
theorem test_d_xor_1 :
    After (start ref [(.R4, 0x12345678)] (fl 1 0 1 0 1) 0 [] 0x280A4) fun t =>
      t.x = regs [(.R4, 0x0)] ∧ t.flags = fl 1 0 1 0 1 ∧ t.pc = 1 ∧ t.run = .running ∧
      t.log = [] := by decide

/-- D-XOR-2: `XOR R0 R1`. -/
theorem test_d_xor_2 :
    After (start ref [(.R0, 0xFFFF0000), (.R1, 0xFF00FF00)] (fl 0 0 0 0 0) 0 [] 0x28081) fun t =>
      t.x = regs [(.R0, 0xFFFF00), (.R1, 0xFF00FF00)] ∧ t.flags = fl 0 0 0 0 0 ∧ t.pc = 1 ∧
      t.run = .running ∧ t.log = [] := by decide

/-- D-NOT-1: `NOT R1 R0`. -/
theorem test_d_not_1 :
    After (start ref [(.R0, 0x1), (.R1, 0xFFFF)] (fl 0 0 0 0 0) 0 [] 0x280C8) fun t =>
      t.x = regs [(.R0, 0x1), (.R1, 0xFFFF0000)] ∧ t.flags = fl 0 0 0 0 0 ∧ t.pc = 1 ∧
      t.run = .running ∧ t.log = [] := by decide

/-- D-NOT-2: `NOT R1 R0`. -/
theorem test_d_not_2 :
    After (start notR2 [(.R0, 0x1), (.R1, 0xFFFF)] (fl 0 0 0 0 0) 0 [] 0x280C8) fun t =>
      t.x = regs [(.R0, 0x1), (.R1, 0xFFFFFFFE)] ∧ t.flags = fl 0 0 0 0 0 ∧ t.pc = 1 ∧
      t.run = .running ∧ t.log = [] := by decide

/-- D-SUMAR-2: `SUMAR R0 R1`. -/
theorem test_d_sumar_2 :
    After (start ref [(.R0, 0xFFFFFFFF), (.R1, 0x1)] (fl 0 0 0 0 0) 0 [] 0x28101) fun t =>
      t.x = regs [(.R0, 0x0), (.R1, 0x1)] ∧ t.flags = fl 1 0 0 1 1 ∧ t.pc = 1 ∧
      t.run = .running ∧ t.log = [] := by decide

/-- D-SUMAR-4: `SUMAR R0 R1`. -/
theorem test_d_sumar_4 :
    After (start ref [(.R0, 0x7FFFFFFF), (.R1, 0x1)] (fl 0 0 0 0 0) 0 [] 0x28101) fun t =>
      t.x = regs [(.R0, 0x80000000), (.R1, 0x1)] ∧ t.flags = fl 0 0 0 1 1 ∧ t.pc = 1 ∧
      t.run = .running ∧ t.log = [] := by decide

/-- D-RESTAR-2: `RESTAR R0 R1`. -/
theorem test_d_restar_2 :
    After (start ref [(.R0, 0x5), (.R1, 0x6)] (fl 0 0 0 0 0) 0 [] 0x28141) fun t =>
      t.x = regs [(.R0, 0xFFFFFFFF), (.R1, 0x6)] ∧ t.flags = fl 1 0 1 0 1 ∧ t.pc = 1 ∧
      t.run = .running ∧ t.log = [] := by decide

/-- D-RESTAR-5: `RESTAR R0 R1`. -/
theorem test_d_restar_5 :
    After (start ref [(.R0, 0x0), (.R1, 0x80000000)] (fl 0 0 0 0 0) 0 [] 0x28141) fun t =>
      t.x = regs [(.R0, 0x80000000), (.R1, 0x80000000)] ∧ t.flags = fl 1 0 1 1 0 ∧ t.pc = 1 ∧
      t.run = .running ∧ t.log = [] := by decide

/-- D-MULT-3: `MULT R0 R1`. -/
theorem test_d_mult_3 :
    After (start masked [(.R0, 0x10000), (.R1, 0x10000)] (fl 0 0 0 0 0) 0 [] 0x28181) fun t =>
      t.x = regs [(.R0, 0x0), (.R1, 0x10000)] ∧ t.flags = fl 1 1 0 1 0 ∧ t.pc = 1 ∧
      t.run = .running ∧ t.log = [] := by decide

/-- D-MULT-5: `MULT R0 R1`. -/
theorem test_d_mult_5 :
    After (start ref [(.R0, 0xFFFFFFFF), (.R1, 0xFFFFFFFF)] (fl 0 0 0 0 0) 0 [] 0x28181) fun t =>
      t.x = regs [(.R0, 0x1), (.R1, 0xFFFFFFFF)] ∧ t.flags = fl 1 0 0 0 1 ∧ t.pc = 1 ∧
      t.run = .running ∧ t.log = [] := by decide

/-- D-DIV-1: `DIV R0 R1`. -/
theorem test_d_div_1 :
    After (start ref [(.R0, 0x11), (.R1, 0x5)] (fl 1 0 1 0 1) 0 [] 0x281C1) fun t =>
      t.x = regs [(.R0, 0x3), (.R1, 0x2)] ∧ t.pc = 1 ∧ t.run = .running ∧ t.log =
      [] := by decide

/-- D-DIV-4: `DIV R0 R1`. -/
theorem test_d_div_4 :
    After (start ref [(.R0, 0x11), (.R1, 0x0)] (fl 1 0 1 0 1) 0 [] 0x281C1) fun t =>
      t.x = regs [(.R0, 0x11), (.R1, 0x0)] ∧ t.flags = fl 1 0 1 0 1 ∧ t.pc = 0 ∧
      t.run = .faulted .divByZero 0 ∧ t.log = [] := by decide

/-- D-COPIAR-1: `COPIAR R0 R1`. -/
theorem test_d_copiar_1 :
    After (start ref [(.R0, 0x80000000), (.R1, 0x5)] (fl 0 0 0 0 0) 0 [] 0x28201) fun t =>
      t.x = regs [(.R0, 0x80000000), (.R1, 0x80000000)] ∧ t.flags = fl 0 0 0 0 0 ∧ t.pc = 1 ∧
      t.run = .running ∧ t.log = [] := by decide

/-- D-COMP-1: `COMP R0 R1`. -/
theorem test_d_comp_1 :
    After (start ref [(.R0, 0x3), (.R1, 0x9)] (fl 0 0 0 1 1) 0 [] 0x28241) fun t =>
      t.x = regs [(.R0, 0x3), (.R1, 0x9)] ∧ t.flags = fl 1 0 1 1 1 ∧ t.pc = 1 ∧
      t.run = .running ∧ t.log = [] := by decide

/-- D-COMP-4: `COMP R0 R1`. -/
theorem test_d_comp_4 :
    After (start ref [(.R0, 0x80000000), (.R1, 0x1)] (fl 1 1 1 0 0) 0 [] 0x28241) fun t =>
      t.x = regs [(.R0, 0x80000000), (.R1, 0x1)] ∧ t.flags = fl 0 0 0 0 0 ∧ t.pc = 1 ∧
      t.run = .running ∧ t.log = [] := by decide

/-- D-INTERCAMBIAR-1: `INTERCAMBIAR R5 R6`. -/
theorem test_d_intercambiar_1 :
    After (start ref [(.R5, 0x1), (.R6, 0x2)] (fl 0 0 0 0 0) 0 [] 0x282AE) fun t =>
      t.x = regs [(.R5, 0x2), (.R6, 0x1)] ∧ t.flags = fl 0 0 0 0 0 ∧ t.pc = 1 ∧
      t.run = .running ∧ t.log = [] := by decide

/-- D-MOD-1: `MOD R0 R1`. -/
theorem test_d_mod_1 :
    After (start ref [(.R0, 0x11), (.R1, 0x5)] (fl 0 0 0 0 0) 0 [] 0x282C1) fun t =>
      t.x = regs [(.R0, 0x2), (.R1, 0x5)] ∧ t.pc = 1 ∧ t.run = .running ∧ t.log =
      [] := by decide

/-- D-MOD-2: `MOD R0 R1`. -/
theorem test_d_mod_2 :
    After (start ref [(.R0, 0x7), (.R1, 0x0)] (fl 0 1 0 1 0) 0 [] 0x282C1) fun t =>
      t.x = regs [(.R0, 0x7), (.R1, 0x0)] ∧ t.flags = fl 0 1 0 1 0 ∧ t.pc = 1 ∧
      t.run = .running ∧ t.log = [⟨.modByZero, 0, 0x282C1⟩] := by decide

/-- E-HALT-1: `PARAR`. -/
theorem test_e_halt_1 :
    After (start ref [(.R0, 0x5)] (fl 1 0 1 0 1) 0 [] 0x0) fun t =>
      t.x = regs [(.R0, 0x5)] ∧ t.flags = fl 1 0 1 0 1 ∧ t.pc = 0 ∧ t.run = .halted
      .haltWord ∧ t.log = [] := by decide

/-- E-UNREC-6: `(unrecognized)`. -/
theorem test_e_unrec_6 :
    After (start ref [] (fl 0 0 0 0 0) 5 [] 0x40000) fun t =>
      t.x = regs [] ∧ t.flags = fl 0 0 0 0 0 ∧ t.pc = 6 ∧ t.run = .running ∧ t.log =
      [⟨.unrecognizedOpcode, 5, 0x40000⟩] := by decide

/-! ## Runs, the loader and the assembler -/

/-- E-RUN-1 and E-RUN-2: an entry at or past the end of memory halts without a fetch. -/
theorem test_entry_past_the_end :
    After (State.launch { ref with memSize := 4 } (regs []) (fl 0 0 0 0 0) 0 [] 4) (fun t =>
      t.run = .halted .endOfMemory ∧ t.pc = 4 ∧ t.log = []) ∧
    After (State.launch { ref with memSize := 4 } (regs []) (fl 0 0 0 0 0) 0 [] 1000) (fun t =>
      t.run = .halted .endOfMemory ∧ t.pc = 1000 ∧ t.log = []) := by decide

/-- LD-1, LD-5, LD-7 and LD-8. -/
theorem test_load :
    load ref [] [0x00004003] 256 = .ok (image [(256, 0x00004103)]) ∧
    load ref [] [0x000047D0] 100 = .error (.relocationOverflow 0 2100) ∧
    load ref [] [0x00018001, 0x00018001, 0x00018001] 2046 = .error (.imageOverflow 2 2048) ∧
    load ref [] [] 0 = .error .emptyInput := by decide

/-- LD-2, LD-3 and LD-4: Formats A and C are relocated, all other words are copied. -/
theorem test_load_relocates :
    load ref [] [0x00024002, 0x00024800, 0x00008805] 10 =
      .ok (image [(10, 0x0002400C), (11, 0x0002480A), (12, 0x0000880F)]) ∧
    load ref [] [0x00018005, 0x0000C003, 0x00028101, 0x00000000] 10 =
      .ok (image [(10, 0x00018005), (11, 0x0000C003), (12, 0x00028101)]) ∧
    load ref [] [0x00000001, 0xFFFFFFFF] 10 =
      .ok (image [(10, 0x00000001), (11, 0xFFFFFFFF)]) := by decide

/-- One line under the spec's labels. -/
def asm (line : String) : Except AsmError Word :=
  assembleLine JmpMnemonics.reference opcRef line.toList

/-- ASM-1, ASM-5, ASM-6 and ASM-11. -/
theorem test_assemble :
    asm "CARGAR R0 3" = .ok 0x00004003 ∧ asm "SALTAR 2047" = .ok 0x000247FF ∧
    asm "J_ZERO 8" = .ok 0x00024808 ∧ asm "PARAR" = .ok 0 := by decide

/-- ASM-13, ASM-15, ASM-17 to ASM-20 and ASM-24. -/
theorem test_assemble_rejects :
    asm "CARGAR R8 1" = .error .unknownRegister ∧ asm "CARGAR R0 -1" = .error .badOperand ∧
    asm "SALTAR 2048" = .error .badOperand ∧ asm "cargar R0 1" = .error .unknownOperation ∧
    asm "FOO R0 1" = .error .unknownOperation ∧ asm "PARAR 1" = .error .operandCount ∧
    asm "SUMAR R0 5" = .error .unknownRegister := by decide

/-- ASM-3: the 32-character form. -/
theorem test_wordString :
    wordString 0x0001B800 = "00000000000000011011100000000000".toList := by decide

/-! ## Witnesses: a state and operands that meet the hypotheses of each obligation -/

/-- The state after one step. -/
def after (s : State) : State := (stepped s).getD s

theorem step_after {s : State} (h : (stepped s).isSome = true) : step s = .next (after s) := by
  apply step_of_stepped
  unfold after
  cases hs : stepped s with
  | none => rw [hs] at h; cases h
  | some t => rfl

/-- `SUMAR R0 R1` about to run, in the last word of a memory of one word. -/
def sSumar : State :=
  start { ref with memSize := 1 } [(.R0, 0xFFFFFFFF), (.R1, 1)] (fl 0 0 0 0 0) 0 [] 0x28101

/-- `DIV R0 R1`, by 5 and by 0. -/
def sDiv : State := start ref [(.R0, 17), (.R1, 5)] (fl 0 0 0 0 0) 0 [] 0x281C1
def sDivZero : State := start ref [(.R0, 17)] (fl 0 0 0 0 0) 0 [] 0x281C1

/-- `MOD R0 R1` by 0. -/
def sModZero : State := start ref [(.R0, 7)] (fl 0 0 0 0 0) 0 [] 0x282C1

/-- `ALMACENAR R3 1`, which overwrites the next instruction with `SUMAR R0 R1`. -/
def sStore : State := start ref [(.R3, 0x28101)] (fl 0 0 0 0 0) 0 [] 0x9801

/-- `CARGAR R2 64`, one word past a memory of 64 words. -/
def sBounds : State := start small [] (fl 0 0 0 0 0) 0 [] 0x5040

/-- An unrecognized word, and a `SALTAR` past the end of memory. -/
def sUnrecognized : State := start ref [] (fl 0 0 0 0 0) 0 [] 0x28300
def sJumpOut : State := start small [] (fl 0 0 0 0 0) 63 [] 0x24040

theorem witness_EveryStepKeepsTheInvariant : ∃ s t, s.Inv ∧ step s = .next t :=
  ⟨sStore, after sStore, ⟨by decide, by decide, (fun _ h => nomatch h), trivial⟩,
    step_after (by decide)⟩

theorem witness_NoStepChangesTheParameters : ∃ s t, step s = .next t :=
  ⟨sSumar, after sSumar, step_after (by decide)⟩

/-- One instruction of each format, at boundary operands. -/
theorem witness_DecodeOfEncodeIsTheInstruction : opcRef.legal = true ∧
    Instr.wellFormed opcRef (.cargar .R7 2047) = true ∧
    Instr.wellFormed opcRef (.rotacionR .R0 0) = true ∧
    Instr.wellFormed opcRef (.jNovf 2047) = true ∧
    Instr.wellFormed opcRef (.mod .R7 .R7) = true ∧ Instr.wellFormed opcRef .parar = true := by decide

theorem witness_EncodeOfDecodeIsTheWord : opcRef.legal = true ∧
    decode opcRef 0x000282FF = some (.mod .R7 .R7) := by decide

/-- A word for each clause: a row of each table, and a word with no row. -/
theorem witness_DecodingIsAnUnorderedRowMatch : opcRef.legal = true ∧
    (fieldOpAB 0x4000#32, OpAB.a .cargar) ∈ opcRef.tabAB ∧
    (fieldOpAB 0xC000#32, OpAB.b .lsl) ∈ opcRef.tabAB ∧
    (fieldOpC 0x24000#32, OpC.saltar) ∈ opcRef.tabC ∧
    (fieldOpD 0x282FF#32, OpD.mod) ∈ opcRef.tabD ∧
    (∀ op ∈ OpAB.all, (fieldOpAB 0x28300#32, op) ∉ opcRef.tabAB) ∧
    (∀ op ∈ OpC.all, (fieldOpC 0x28300#32, op) ∉ opcRef.tabC) ∧
    (∀ op ∈ OpD.all, (fieldOpD 0x28300#32, op) ∉ opcRef.tabD) := by decide

/-- The boundary words of every class. -/
theorem witness_WordClassesOfTheReferenceAssignment :
    [0x1, 0x3FFF, 0x28300, 0xFFFFFFFF].all (fun w => decide (classify opcRef w = .unrecognized)) = true ∧
    classify opcRef 0x4000 = .A .cargar .R0 0 ∧ classify opcRef 0x23FFF = .B .rotacionR .R7 2047 ∧
    classify opcRef 0x24000 = .C .saltar 0 ∧ classify opcRef 0x27FFF = .C .jNovf 2047 ∧
    classify opcRef 0x28000 = .D .or .R0 .R0 ∧ classify opcRef 0x282FF = .D .mod .R7 .R7 := by decide

theorem witness_StepRunsTheDecodedInstruction : sSumar.run = .running ∧
    sSumar.pc < sSumar.params.memSize ∧
    decode sSumar.params.opc (sSumar.mem.readWord sSumar.pc) = some (.sumar .R0 .R1) := by decide

/-- `pc = MEM_SIZE` exactly, reached by a step; and `ENTRY = MEM_SIZE`. -/
theorem witness_EndOfMemoryHaltsWithoutAFetch : (after sSumar).run = .running ∧
    (after sSumar).pc = (after sSumar).params.memSize ∧ small.memSize ≤ 64 := by decide

theorem witness_HaltWordHalts : State.reset.run = .running ∧
    State.reset.pc < State.reset.params.memSize ∧
    State.reset.mem.readWord State.reset.pc = 0 := by decide

theorem witness_UnrecognizedWordIsAReportedNoOp : sUnrecognized.run = .running ∧
    sUnrecognized.pc < sUnrecognized.params.memSize ∧
    classify sUnrecognized.params.opc (sUnrecognized.mem.readWord sUnrecognized.pc) =
      .unrecognized := by decide

theorem witness_ExactlyTheRunningStatesStep : sSumar.run = .running ∧
    (after State.reset).run = .halted .haltWord ∧ (after sDivZero).run = .faulted .divByZero 0 := by
  decide

theorem witness_PcAfterACycle : ∃ s t, step s = .next t ∧ t.run = .running ∧
    t.params.memSize ≤ t.pc ∧ s.current.bind (jumpOf s.flags) = some (true, 64) :=
  ⟨sJumpOut, after sJumpOut, step_after (by decide), by decide, by decide, by decide⟩

theorem witness_OnlyListedInstructionsWriteRegisters :
    ∃ s t, step s = .next t ∧ t.x.get .R0 ≠ s.x.get .R0 :=
  ⟨sSumar, after sSumar, step_after (by decide), by decide⟩

theorem witness_OnlyListedInstructionsWriteFlags :
    ∃ s t, step s = .next t ∧ t.flags.C ≠ s.flags.C ∧ t.flags.P ≠ s.flags.P :=
  ⟨sSumar, after sSumar, step_after (by decide), by decide, by decide⟩

theorem witness_OnlyAlmacenarWritesMemory : ∃ s t, s.mem.wf = true ∧ step s = .next t ∧
    t.mem.readWord 1 ≠ s.mem.readWord 1 :=
  ⟨sStore, after sStore, by decide, step_after (by decide), by decide⟩

theorem witness_TheLogOnlyGrows : ∃ s t, step s = .next t ∧ t.log ≠ s.log :=
  ⟨sModZero, after sModZero, step_after (by decide), by decide⟩

theorem witness_FaultsArePrecise : ∃ s t, step s = .next t ∧ t.run = .faulted .memBounds 0 :=
  ⟨sBounds, after sBounds, step_after (by decide), by decide⟩

/-- Each condition of the list arises: end of memory, halt word, the two faults and the two reports. -/
theorem witness_TheRunTimeConditionsAreComplete :
    After (after sSumar) (fun t => t.run = .halted .endOfMemory) ∧
    After State.reset (fun t => t.run = .halted .haltWord) ∧
    After sDivZero (fun t => t.run = .faulted .divByZero 0) ∧
    After sBounds (fun t => t.run = .faulted .memBounds 0) ∧
    After sUnrecognized (fun t => t.log ≠ [] ∧ sUnrecognized.current = none) ∧
    After sModZero (fun t => t.log ≠ [] ∧ sModZero.current = some (.mod .R0 .R1) ∧
      sModZero.x.get .R1 = 0) := by decide

/-- A store of an instruction, and of the halt word (A-ALMACENAR-2). -/
theorem witness_AStoreIsSeenByTheNextFetch : sStore.mem.wf = true ∧ sStore.run = .running ∧
    sStore.current = some (.almacenar .R3 1) ∧ address 1 = sStore.pc + 1 ∧
    address 1 < sStore.params.memSize ∧
    decode sStore.params.opc (sStore.x.get .R3) = some (.sumar .R0 .R1) ∧
    (start ref [] (fl 0 0 0 0 0) 0 [] 0x9801).x.get .R3 = 0 := by decide

theorem witness_MemoryIsTheLatestStore : sStore.mem.wf = true ∧
    (stateAfter 2 sStore).isSome = true ∧ latestStore 1 2 sStore = some 0x28101 ∧
    latestStore 5 2 sStore = none := by decide

/-- A `pc` inside memory, one exactly at its end, and a run that has ended. -/
theorem witness_APlacedWordIsTheNextToRun : State.reset.mem.wf = true ∧
    State.reset.pc < State.reset.params.memSize ∧ 1 ≤ State.reset.params.memSize ∧
    decode State.reset.params.opc 0x28101 = some (.sumar .R0 .R1) ∧
    (after sSumar).mem.wf = true ∧ (after sSumar).pc = (after sSumar).params.memSize ∧
    ((after sSumar).withFetchWord 32 0x28101).fetch = some 0x28101 ∧
    (after State.reset).mem.wf = true ∧ (after State.reset).run ≠ .running := by decide

/-- A run that ends, and one whose fuel ends first. -/
theorem witness_RunningOutOfFuelIsNoHalt :
    runFuel 2 State.reset = .ended (after State.reset) ∧
    runFuel 1 sStore = .outOfFuel (after sStore) := by decide

theorem witness_DrawsReachOnlyTheFlagsOfDivAndMod :
    (∃ t, step sDiv = .next t) ∧ (∃ t, step sSumar = .next t) ∧
    sSumar.current = some (.sumar .R0 .R1) :=
  ⟨⟨after sDiv, step_after (by decide)⟩, ⟨after sSumar, step_after (by decide)⟩, by decide⟩

/-- Two register files that agree on what `SUMAR R0 R1` reads and differ elsewhere. -/
theorem witness_InstructionsReadOnlyListedRegisters :
    ∀ r ∈ readRegs .r1 (.sumar .R0 .R1), (regs [(.R0, 3), (.R5, 9)]).get r = (regs [(.R0, 3)]).get r := by
  decide

/-- The last address of a memory of 64 words, and the first past it. -/
theorem witness_CargarLoadsAWord : (63 : Field11).toNat < sBounds.params.memSize ∧
    sBounds.params.memSize ≤ (64 : Field11).toNat := by decide

theorem witness_AlmacenarStoresAWord : sBounds.mem.wf = true ∧
    (63 : Field11).toNat < sBounds.params.memSize ∧
    sBounds.params.memSize ≤ (64 : Field11).toNat := by decide

theorem witness_ShiftsComputeTheirFormulas : 32 ≤ (32 : Field11).toNat ∧ 31 ≤ (31 : Field11).toNat := by
  decide

/-- An amount that is a multiple of 32, and one that is not. -/
theorem witness_RotationsUndoEachOther :
    (0 : Field11).toNat = (32 - (2016 : Field11).toNat % 32) % 32 ∧
    (31 : Field11).toNat = (32 - (33 : Field11).toNat % 32) % 32 := by decide

theorem witness_AJumpPastMemoryHaltsTheNextCycle : sJumpOut.run = .running ∧
    sJumpOut.current = some (.saltar 64) ∧ jumpOf sJumpOut.flags (.saltar 64) = some (true, 64) ∧
    sJumpOut.params.memSize ≤ (64 : Field11).toNat := by decide

theorem witness_NotComplementsTheNamedOperand :
    ref.notOperand = .r1 ∧ notR2.notOperand = .r2 := by decide

/-- A divisor that is 0 and one that is not, in two registers and in one (D-DIV-3, D-DIV-6). -/
theorem witness_DivDividesOrFaults : sDiv.x.get .R1 ≠ 0 ∧ sDivZero.x.get .R1 = 0 ∧
    After (start ref [(.R2, 9)] (fl 0 0 0 0 0) 0 [] 0x281D2) (fun t => t.x = regs [] ∧ t.pc = 1) ∧
    After (start ref [] (fl 0 0 0 0 0) 0 [] 0x281DB) (fun t => t.run = .faulted .divByZero 0) := by
  decide

theorem witness_ModReducesOrReports : sDiv.x.get .R1 ≠ 0 ∧ sModZero.x.get .R1 = 0 ∧
    sModZero.fetch = some 0x282C1 := by decide

/-- Flags for which the two settings differ (D-SUMAR-2, D-MULT-2), and a pair for which they do not. -/
theorem witness_ZeroBasisMattersOnlyAtMultiples :
    flagUnit .unmasked .sumar 0xFFFFFFFF 1 (fl 0 0 0 0 0) ≠
      flagUnit .masked .sumar 0xFFFFFFFF 1 (fl 0 0 0 0 0) ∧
    flagUnit .unmasked .mult 0x10000 0x10000 (fl 0 0 0 0 0) ≠
      flagUnit .masked .mult 0x10000 0x10000 (fl 0 0 0 0 0) ∧
    flagUnit .unmasked .sumar 0 0 (fl 0 0 0 0 0) = flagUnit .masked .sumar 0 0 (fl 0 0 0 0 0) := by
  decide

theorem witness_FlagCornersOfTheArithmetic :
    (flagUnit .unmasked .sumar 0xFFFFFFFF 1 (fl 0 0 0 0 0)).next.C = true := by decide

theorem witness_ArithmeticFormulasAreWordArithmetic : (1 : Word) ≠ 0 := by decide

/-- A memory-referencing word at the largest relocated address, and a word copied as it is. -/
theorem witness_LoadPlacesRelocatedWords : Memory.wf [] = true ∧
    load ref [] [0x00004003, 0x00028101] 2044 = .ok (image [(2044, 0x000047FF), (2045, 0x28101)]) ∧
    memoryReferencing ref.opc 0x00004003 = true ∧ memoryReferencing ref.opc 0x00028101 = false := by
  decide

/-- LD-6's word, `CARGAR R0 2047`, at the default base. -/
theorem witness_ALoadAtTheDefaultBaseCopiesItsWords : Memory.wf [] = true ∧ defaultBase = 0 ∧
    load ref [] [0x000047FF, 0x00028101] = .ok (image [(0, 0x000047FF), (1, 0x28101)]) := by decide

/-- Each error of the list, and an image that fills the last cell exactly (LD-10). -/
theorem witness_LoadFailsExactlyOnTheListedErrors :
    load { ref with memSize := 16 } [] [0x00018001, 0x00018001] 15 = .error (.imageOverflow 1 16) ∧
    load ref [] [0x000047FF] 1 = .error (.relocationOverflow 0 2048) ∧
    load ref [] [] 0 = .error .emptyInput ∧
    load { ref with memSize := 16 } [] [0x00018001] 15 = .ok (image [(15, 0x00018001)]) := by decide

theorem witness_RelocationKeepsTheOperation :
    relocate opcRef 2044 0x00004003 = some 0x000047FF ∧
    classify opcRef 0x00004003 = .A .cargar .R0 3 ∧
    relocate opcRef 10 0x00024800 = some 0x0002480A ∧ classify opcRef 0x00024800 = .C .jZero 0 ∧
    relocate opcRef 10 0x00028101 = some 0x00028101 ∧
    memoryReferencing opcRef 0x00028101 = false := by decide

theorem witness_AssembledLinesDecodeBack :
    JmpMnemonics.reference.wellFormed (fixedMnemonics.map (·.1)) = true ∧ opcRef.legal = true ∧
    Instr.wellFormed opcRef (.jNovf 2047) = true ∧
    Instr.line JmpMnemonics.reference (.cargar .R7 2047) = "CARGAR R7 2047".toList := by decide

/-- A batch that assembles, and one with two bad lines, both reported. -/
theorem witness_AssemblyIsLineByLineAndAllOrNothing :
    assemble JmpMnemonics.reference opcRef ["PARAR".toList, "SALTAR 5".toList] = .ok [0, 0x24005] ∧
    assemble JmpMnemonics.reference opcRef
      ["FOO".toList, "PARAR".toList, "SALTAR R1".toList] =
        .error [(0, .unknownOperation), (2, .badOperand)] := by decide

theorem witness_WordStringsAreLossless :
    wordOfString "00000000000000011011100000000000".toList = some 0x0001B800 ∧
    wordOfString "0".toList = none := by decide

/-- Example L1-4 booted: the loaded word is the relocated one. -/
theorem witness_BootRunsTheLoadedProgram :
    boot ref JmpMnemonics.reference ["CARGAR R0 3".toList] 256 256 (regs []) (fl 0 0 0 0 0) 0 =
      .ok (State.launch ref (regs []) (fl 0 0 0 0 0) 0 (image [(256, 0x00004103)]) 256) := by decide

end Sys2Proof.Tests
end

section
/-! The state's own rules: which states step, what a step does to `pc`, which registers and flags a
step may write, and which registers an instruction reads (`10_state.md` R23, R24, R26, R28, R32,
R41). -/

namespace Sys2Proof.Machine

open Sys2Proof.Claims

/-! ## The instruction at `pc` -/

theorem State.current_outside {s : State} (h : s.params.memSize ≤ s.pc) : s.current = none := by
  rw [State.current, State.fetch_outside (Nat.not_lt.2 h), Option.bind_none]

theorem State.current_inside {s : State} (h : s.pc < s.params.memSize) :
    s.current = decode s.params.opc (s.mem.readWord s.pc) := by
  rw [State.current, State.fetch_inside h, Option.bind_some]

/-! ## Which states step -/

/-- Every instruction answers a next state (R32). -/
theorem exec_next (i : Instr) (s : State) : ∃ t, exec i s = .next t := by
  cases i with
  | cargar r addr =>
    by_cases ha : address addr < s.params.memSize
    · exact ⟨_, execCargar_inside ha⟩
    · exact ⟨_, execCargar_outside ha⟩
  | almacenar r addr =>
    by_cases ha : address addr < s.params.memSize
    · exact ⟨_, execAlmacenar_inside ha⟩
    · exact ⟨_, execAlmacenar_outside ha⟩
  | div r1 r2 =>
    by_cases hb : s.x.get r2 = 0#32
    · exact ⟨_, execDiv_zero hb⟩
    · exact ⟨_, execDiv_nonzero hb⟩
  | mod r1 r2 =>
    by_cases hb : s.x.get r2 = 0#32
    · exact ⟨_, execMod_zero hb⟩
    · exact ⟨_, execMod_nonzero hb⟩
  | _ => exact ⟨_, rfl⟩

/-- Every cycle answers a next state (R101). -/
theorem cycle_next (s : State) : ∃ t, cycle s = .next t := by
  obtain ⟨-, h⟩ | ⟨-, -, h⟩ | ⟨-, i, -, h⟩ := cycle_cases s
  · exact ⟨_, h⟩
  · exact ⟨_, h⟩
  · exact h ▸ exec_next i s

theorem step_halted {s : State} {reason : HaltReason} (h : s.run = .halted reason) :
    step s = .fault (.halted reason) := by rw [step, h]

theorem step_faulted {s : State} {reason : FaultReason} {pc : Nat}
    (h : s.run = .faulted reason pc) : step s = .fault (.faulted reason pc) := by rw [step, h]

/-- A running engine past the end of memory halts (R102). -/
theorem step_endOfMemory {s : State} (hr : s.run = .running) (h : s.params.memSize ≤ s.pc) :
    step s = .next (s.halt .endOfMemory) := by
  rw [step_running hr, cycle, State.fetch_outside (Nat.not_lt.2 h)]

/-- What a step to a next state did, told by the instruction at `pc` (R101). -/
theorem step_cases {s t : State} (h : step s = .next t) :
    (s.params.memSize ≤ s.pc ∧ s.current = none ∧ t = s.halt .endOfMemory) ∨
    (s.pc < s.params.memSize ∧ s.current = none ∧ t = (s.report .unrecognizedOpcode).advance) ∨
    ∃ i, s.current = some i ∧ ExecCase i s t := by
  obtain ⟨-, hc⟩ := step_next h
  obtain ⟨hpc, e⟩ | ⟨hpc, hd, e⟩ | ⟨hpc, i, hd, e⟩ := cycle_cases s <;> rw [e] at hc
  · injection hc with ht
    exact .inl ⟨hpc, State.current_outside hpc, ht.symm⟩
  · injection hc with ht
    exact .inr (.inl ⟨hpc, (State.current_inside hpc).trans hd, ht.symm⟩)
  · exact .inr (.inr ⟨i, (State.current_inside hpc).trans hd, exec_cases hc⟩)

/-! ## Which registers and flags a step may write (R23, R28) -/

/-- An instruction keeps every register and flag, or writes only those it is listed with; a `MOD` by 0
is of the first kind. -/
theorem ExecCase.regsAndFlags {i : Instr} {s t : State} (h : ExecCase i s t) :
    (t.x = s.x ∧ t.flags = s.flags) ∨
    (OnlyRegsAndFlags i s t ∧ ∀ r1 r2, i = .mod r1 r2 → s.x.get r2 ≠ 0#32) := by
  cases h with
  | halts _ ht => exact .inl (ht ▸ ⟨rfl, rfl⟩)
  | faults _ ht _ => exact .inl (ht ▸ ⟨rfl, rfl⟩)
  | reports _ _ _ _ ht => exact .inl (ht ▸ ⟨rfl, rfl⟩)
  | jumps _ _ _ ht => exact .inl (ht ▸ ⟨rfl, rfl⟩)
  | stores _ _ _ _ ht => exact .inl (ht ▸ ⟨rfl, rfl⟩)
  | computes only _ _ _ _ hd => exact .inr ⟨only, fun r1 r2 e => hd r1 r2 (.inr e)⟩

/-- A step keeps every register and flag, or is a completed instruction that writes only those it is
listed with. -/
theorem step_regsAndFlags {s t : State} (h : step s = .next t) :
    (t.x = s.x ∧ t.flags = s.flags) ∨
    ∃ i, s.current = some i ∧ OnlyRegsAndFlags i s t ∧
      ∀ r1 r2, i = .mod r1 r2 → s.x.get r2 ≠ 0#32 := by
  obtain ⟨-, -, rfl⟩ | ⟨-, -, rfl⟩ | ⟨i, hi, hcase⟩ := step_cases h
  · exact .inl ⟨rfl, rfl⟩
  · exact .inl ⟨rfl, rfl⟩
  · exact hcase.regsAndFlags.imp id fun hw => ⟨i, hi, hw⟩

/-! ## Which registers an instruction reads (R24) -/

/-- The register files `x'` and `y'`, made from `x` and `y`: each register has one value in both, or
in each the value it was made from. -/
def SameOrKept (x y x' y' : Regs) : Prop :=
  ∀ r, y'.get r = x'.get r ∨ (y'.get r = y.get r ∧ x'.get r = x.get r)

theorem SameOrKept.refl (x y : Regs) : SameOrKept x y x y := fun _ => .inr ⟨rfl, rfl⟩

/-- One write of one value to both files. -/
theorem SameOrKept.set {x y x' y' : Regs} (h : SameOrKept x y x' y') (r : Reg) (v : Word) :
    SameOrKept x y (x'.set r v) (y'.set r v) := by
  intro r'
  by_cases hr : r' = r
  · exact .inl (by rw [hr, Regs.get_set_same, Regs.get_set_same])
  · rw [Regs.get_set_other _ _ hr, Regs.get_set_other _ _ hr]
    exact h r'

/-- `o` is an outcome from `s`, and `o'` from `s` with the register file `y`: both are next states,
they differ in their registers alone, and there only as `SameOrKept` allows. -/
def SameEffect (s : State) (y : Regs) (o o' : Host.Outcome State Fault Refusal) : Prop :=
  ∃ t z, o = .next t ∧ o' = .next { t with x := z } ∧ SameOrKept s.x y t.x z

section

variable {s : State} {y : Regs}

/-- Agreement on the one register an instruction reads. -/
theorem agree_on_singleton {r : Reg} (h : ∀ r' ∈ [r], y.get r' = s.x.get r') :
    y.get r = s.x.get r := by simpa using h

/-- Agreement on the two registers an instruction reads. -/
theorem agree_on_pair {r1 r2 : Reg} (h : ∀ r ∈ [r1, r2], y.get r = s.x.get r) :
    y.get r1 = s.x.get r1 ∧ y.get r2 = s.x.get r2 := by simpa using h

theorem sameEffect_of_regs_kept {t : State} (h : t.x = s.x) :
    SameEffect s y (.next t) (.next { t with x := y }) :=
  ⟨t, y, rfl, rfl, h ▸ .refl s.x y⟩

theorem sameEffect_putRegister {r : Reg} {v v' : Word} (hv : v' = v) :
    SameEffect s y (s.putRegister r v) ({ s with x := y }.putRegister r v') :=
  ⟨_, y.set r v, rfl, by rw [hv]; rfl, (SameOrKept.refl s.x y).set r v⟩

theorem sameEffect_alu {op : OpD} {dest : Reg} {a a' b b' v v' : Word} (ha : a' = a) (hb : b' = b)
    (hv : v' = v) : SameEffect s y (s.alu op a b dest v) ({ s with x := y }.alu op a' b' dest v') := by
  subst ha hb hv
  exact ⟨_, y.set dest v', rfl, rfl, (SameOrKept.refl s.x y).set dest v'⟩

theorem sameEffect_setReg2 {op : OpD} {r1 r2 : Reg} {a a' b b' v1 v1' v2 v2' : Word} (ha : a' = a)
    (hb : b' = b) (h1 : v1' = v1) (h2 : v2' = v2) :
    SameEffect s y (.next ((s.setReg2 r1 v1 r2 v2).updateFlags op a b).advance)
      (.next (({ s with x := y }.setReg2 r1 v1' r2 v2').updateFlags op a' b').advance) := by
  subst ha hb h1 h2
  exact ⟨_, y.set2 r1 v1' r2 v2', rfl, rfl, ((SameOrKept.refl s.x y).set r1 v1').set r2 v2'⟩

/-- On register files that agree on the registers it reads, an instruction has the same effect. -/
theorem exec_sameEffect {i : Instr}
    (h : ∀ r ∈ readRegs s.params.notOperand i, y.get r = s.x.get r) :
    SameEffect s y (exec i s) (exec i { s with x := y }) := by
  cases i with
  | cargar r addr =>
    by_cases ha : address addr < s.params.memSize
    · rw [exec, exec, execCargar_inside ha, execCargar_inside (s := { s with x := y }) ha]
      exact sameEffect_putRegister rfl
    · rw [exec, exec, execCargar_outside ha, execCargar_outside (s := { s with x := y }) ha]
      exact sameEffect_of_regs_kept rfl
  | almacenar r addr =>
    have hr := agree_on_singleton h
    by_cases ha : address addr < s.params.memSize
    · rw [exec, exec, execAlmacenar_inside ha, execAlmacenar_inside (s := { s with x := y }) ha, hr]
      exact sameEffect_of_regs_kept rfl
    · rw [exec, exec, execAlmacenar_outside ha, execAlmacenar_outside (s := { s with x := y }) ha]
      exact sameEffect_of_regs_kept rfl
  | lsl r k =>
    exact sameEffect_putRegister (congrArg (lslWord · k.toNat) (agree_on_singleton h))
  | lsr r k =>
    exact sameEffect_putRegister (congrArg (lsrWord · k.toNat) (agree_on_singleton h))
  | asr r k =>
    exact sameEffect_putRegister (congrArg (asrWord · k.toNat) (agree_on_singleton h))
  | cargarValor r k => exact sameEffect_putRegister rfl
  | rotacionL r k =>
    exact sameEffect_putRegister (congrArg (rotlWord · k.toNat) (agree_on_singleton h))
  | rotacionR r k =>
    exact sameEffect_putRegister (congrArg (rotrWord · k.toNat) (agree_on_singleton h))
  | or r1 r2 =>
    obtain ⟨h1, h2⟩ := agree_on_pair h
    exact sameEffect_alu h1 h2 (congrArg₂ (· ||| ·) h1 h2)
  | and r1 r2 =>
    obtain ⟨h1, h2⟩ := agree_on_pair h
    exact sameEffect_alu h1 h2 (congrArg₂ (· &&& ·) h1 h2)
  | xor r1 r2 =>
    obtain ⟨h1, h2⟩ := agree_on_pair h
    exact sameEffect_alu h1 h2 (congrArg₂ (· ^^^ ·) h1 h2)
  | not r1 r2 =>
    -- for `NOT` and `COPIAR` the flag unit writes nothing: what it sees of the other operand is lost
    exact sameEffect_putRegister (congrArg complement (agree_on_singleton h))
  | copiar r1 r2 => exact sameEffect_putRegister (agree_on_singleton h)
  | sumar r1 r2 =>
    obtain ⟨h1, h2⟩ := agree_on_pair h
    exact sameEffect_alu h1 h2 (congrArg maskWord (congrArg₂ unmaskedSum h1 h2))
  | restar r1 r2 =>
    obtain ⟨h1, h2⟩ := agree_on_pair h
    exact sameEffect_alu h1 h2 (congrArg maskWord (congrArg₂ unmaskedDifference h1 h2))
  | mult r1 r2 =>
    obtain ⟨h1, h2⟩ := agree_on_pair h
    exact sameEffect_alu h1 h2 (congrArg maskWord (congrArg₂ unmaskedProduct h1 h2))
  | div r1 r2 =>
    obtain ⟨h1, h2⟩ := agree_on_pair h
    by_cases hb : s.x.get r2 = 0#32
    · rw [exec, exec, execDiv_zero hb, execDiv_zero (s := { s with x := y }) (h2.trans hb)]
      exact sameEffect_of_regs_kept rfl
    · rw [exec, exec, execDiv_nonzero hb, execDiv_nonzero (s := { s with x := y }) (h2 ▸ hb)]
      exact sameEffect_setReg2 h1 h2 (congrArg₂ quotient h1 h2) (congrArg₂ remainder h1 h2)
  | mod r1 r2 =>
    obtain ⟨h1, h2⟩ := agree_on_pair h
    by_cases hb : s.x.get r2 = 0#32
    · rw [exec, exec, execMod_zero hb, execMod_zero (s := { s with x := y }) (h2.trans hb)]
      exact sameEffect_of_regs_kept rfl
    · rw [exec, exec, execMod_nonzero hb, execMod_nonzero (s := { s with x := y }) (h2 ▸ hb)]
      exact sameEffect_alu h1 h2 (congrArg₂ remainder h1 h2)
  | intercambiar r1 r2 =>
    obtain ⟨h1, h2⟩ := agree_on_pair h
    exact sameEffect_setReg2 h1 h2 h2 h1
  | comp r1 r2 =>
    obtain ⟨h1, h2⟩ := agree_on_pair h
    simp only [exec, execComp, State.reg_eq, h1, h2]
    exact sameEffect_of_regs_kept rfl
  | _ =>
    -- `PARAR` and the jumps
    exact sameEffect_of_regs_kept rfl

end

/-! ## The obligations of the state -/

/-- Settles O15: a running engine makes a cycle, a cycle always answers, and a run that has ended stops
`step` by name. -/
theorem exactlyTheRunningStatesStep : Obligations.ExactlyTheRunningStatesStep := by
  intro s
  refine ⟨⟨fun ⟨_, h⟩ => (step_next h).1, fun hr => ?_⟩, fun _ => step_halted,
    fun _ _ => step_faulted⟩
  rw [step_running hr]
  exact cycle_next s

/-- Settles O16, by the cases of a step: only a jump sets `pc` to anything but `pc + 1` and goes on. -/
theorem pcAfterACycle : Obligations.PcAfterACycle := by
  intro s t h hr
  refine ⟨?_, step_endOfMemory hr⟩
  obtain ⟨-, -, rfl⟩ | ⟨-, hi, rfl⟩ | ⟨i, hi, hcase⟩ := step_cases h
  · simp at hr
  · rw [hi]; rfl
  · rw [hi, Option.bind_some]
    cases hcase with
    | halts _ ht => simp [ht] at hr
    | faults _ ht _ => simp [ht] at hr
    | reports _ _ hmod _ ht => rw [hmod, ht]; rfl
    | jumps cond _ hj ht => rw [hj, ht]; cases cond <;> rfl
    | stores _ _ hst _ ht => rw [hst, ht]; rfl
    | computes only hj _ _ _ _ => rw [hj, only.pc]

/-- Settles O17: a step that changes a register is a completed instruction, which writes listed
registers only. -/
theorem onlyListedInstructionsWriteRegisters : Obligations.OnlyListedInstructionsWriteRegisters := by
  intro s t r h hne
  obtain ⟨hx, -⟩ | ⟨i, hi, only, hmod⟩ := step_regsAndFlags h
  · exact absurd (hx ▸ rfl) hne
  · exact ⟨i, hi, by_contra fun hr => hne (only.regs r hr), hmod⟩

/-- Settles O18: a step that changes a flag is a completed instruction, which writes listed flags
only. -/
theorem onlyListedInstructionsWriteFlags : Obligations.OnlyListedInstructionsWriteFlags := by
  intro s t h
  obtain ⟨-, hf⟩ | ⟨i, hi, only, hmod⟩ := step_regsAndFlags h
  · simp [hf]
  · refine ⟨fun hne => ⟨i, hi, by_contra fun hw => ?_, hmod⟩,
      fun hne => ⟨i, hi, by_contra fun hw => ?_, hmod⟩⟩
    · obtain ⟨hC, hZ, hN⟩ := only.flagsCZN hw
      simp [hC, hZ, hN] at hne
    · obtain ⟨hP, hV⟩ := only.flagsPV hw
      simp [hP, hV] at hne

/-- Settles O29, from the common effect of an instruction on two register files. -/
theorem instructionsReadOnlyListedRegisters : Obligations.InstructionsReadOnlyListedRegisters := by
  intro i s y h
  obtain ⟨t, z, ht, hu, hz⟩ := exec_sameEffect h
  exact ⟨t, ht, _, hu, rfl, rfl, rfl, rfl, rfl, rfl, hz⟩

/-- Settles O1: every row of R41 is a field of the launched state, and an unlisted cell reads as 0. -/
theorem launchCreatesTheInitialState : Obligations.LaunchCreatesTheInitialState := by
  intro p initRegs initFlags draws mem entry
  exact ⟨rfl, rfl, rfl, rfl, rfl, rfl, Memory.readWord_nil⟩

end Sys2Proof.Machine
end

section
/-! The encoding: which row a word matches, the word classes of the reference assignment, and words
as strings (`30_encoding.md` R83, R84, R85, R92). -/

namespace Sys2Proof

/-! ## The outcomes of the classifier (R83) -/

section Classify

variable {opc : Opc} {w : Word}

@[simp] theorem classify_zero (opc : Opc) : classify opc 0#32 = .halt := if_pos rfl

theorem classify_of_lookup_a {op : OpA} (hw : w ≠ 0#32)
    (h : opc.tabAB.lookup (fieldOpAB w) = some (.a op)) :
    classify opc w = .A op (fieldR w) (fieldLow w) := by
  simp only [classify, if_neg hw, h]

theorem classify_of_lookup_b {op : OpB} (hw : w ≠ 0#32)
    (h : opc.tabAB.lookup (fieldOpAB w) = some (.b op)) :
    classify opc w = .B op (fieldR w) (fieldLow w) := by
  simp only [classify, if_neg hw, h]

theorem classify_of_lookup_c {op : OpC} (hw : w ≠ 0#32)
    (hAB : opc.tabAB.lookup (fieldOpAB w) = none)
    (h : opc.tabC.lookup (fieldOpC w) = some op) : classify opc w = .C op (fieldLow w) := by
  simp only [classify, if_neg hw, hAB, h]

theorem classify_of_lookup_d {op : OpD} (hw : w ≠ 0#32)
    (hAB : opc.tabAB.lookup (fieldOpAB w) = none) (hC : opc.tabC.lookup (fieldOpC w) = none)
    (h : opc.tabD.lookup (fieldOpD w) = some op) :
    classify opc w = .D op (fieldR1 w) (fieldR2 w) := by
  simp only [classify, if_neg hw, hAB, hC, h]

theorem classify_of_lookup_none (hw : w ≠ 0#32)
    (hAB : opc.tabAB.lookup (fieldOpAB w) = none) (hC : opc.tabC.lookup (fieldOpC w) = none)
    (hD : opc.tabD.lookup (fieldOpD w) = none) : classify opc w = .unrecognized := by
  simp only [classify, if_neg hw, hAB, hC, hD]

end Classify

/-! ## A row is matched whatever the order of the tables (R84) -/

theorem lookup_none_of_no_row {n : Nat} {α : Type} {k : BitVec n} {tab : List (BitVec n × α)}
    (h : ∀ op, (k, op) ∉ tab) : tab.lookup k = none := by
  refine lookup_none_iff.2 fun hk => ?_
  obtain ⟨⟨_, op⟩, hmem, rfl⟩ := List.mem_map.1 hk
  exact h op hmem

section Legal

variable {opc : Opc} {w : Word}

/-- By W2, a word that matches a C row matches no A/B row. -/
theorem Opc.lookup_tabAB_none_of_c (hl : opc.legal = true) {op : OpC}
    (h : (fieldOpC w, op) ∈ opc.tabC) : opc.tabAB.lookup (fieldOpAB w) = none := by
  obtain ⟨-, hW2, -⟩ := Opc.legal_iff.1 hl
  rw [lookup_none_iff, fieldOpAB_of_fieldOpC]
  exact hW2 _ h

/-- By W3, a word that matches a D row matches no A/B row. -/
theorem Opc.lookup_tabAB_none_of_d (hl : opc.legal = true) {op : OpD}
    (h : (fieldOpD w, op) ∈ opc.tabD) : opc.tabAB.lookup (fieldOpAB w) = none := by
  obtain ⟨-, -, hW3⟩ := Opc.legal_iff.1 hl
  rw [lookup_none_iff, fieldOpAB_of_fieldOpD]
  exact (hW3 _ h).1

/-- By W3, a word that matches a D row matches no C row. -/
theorem Opc.lookup_tabC_none_of_d (hl : opc.legal = true) {op : OpD}
    (h : (fieldOpD w, op) ∈ opc.tabD) : opc.tabC.lookup (fieldOpC w) = none := by
  obtain ⟨-, -, hW3⟩ := Opc.legal_iff.1 hl
  rw [lookup_none_iff, fieldOpC_of_fieldOpD]
  exact (hW3 _ h).2

/-- By W1, no table repeats a key. -/
theorem Opc.keys_nodup (hl : opc.legal = true) : (opc.tabAB.map (·.1)).Nodup ∧
    (opc.tabC.map (·.1)).Nodup ∧ (opc.tabD.map (·.1)).Nodup := by
  obtain ⟨⟨hAB, hC, hD⟩, -⟩ := Opc.legal_iff.1 hl
  exact ⟨(tableOk_iff.1 hAB).1, (tableOk_iff.1 hC).1, (tableOk_iff.1 hD).1⟩

theorem classify_of_row_a (hl : opc.legal = true) (hw : w ≠ 0#32) {op : OpA}
    (h : (fieldOpAB w, OpAB.a op) ∈ opc.tabAB) :
    classify opc w = .A op (fieldR w) (fieldLow w) :=
  classify_of_lookup_a hw (lookup_of_mem (Opc.keys_nodup hl).1 h)

theorem classify_of_row_b (hl : opc.legal = true) (hw : w ≠ 0#32) {op : OpB}
    (h : (fieldOpAB w, OpAB.b op) ∈ opc.tabAB) :
    classify opc w = .B op (fieldR w) (fieldLow w) :=
  classify_of_lookup_b hw (lookup_of_mem (Opc.keys_nodup hl).1 h)

theorem classify_of_row_c (hl : opc.legal = true) (hw : w ≠ 0#32) {op : OpC}
    (h : (fieldOpC w, op) ∈ opc.tabC) : classify opc w = .C op (fieldLow w) :=
  classify_of_lookup_c hw (Opc.lookup_tabAB_none_of_c hl h)
    (lookup_of_mem (Opc.keys_nodup hl).2.1 h)

theorem classify_of_row_d (hl : opc.legal = true) (hw : w ≠ 0#32) {op : OpD}
    (h : (fieldOpD w, op) ∈ opc.tabD) : classify opc w = .D op (fieldR1 w) (fieldR2 w) :=
  classify_of_lookup_d hw (Opc.lookup_tabAB_none_of_d hl h) (Opc.lookup_tabC_none_of_d hl h)
    (lookup_of_mem (Opc.keys_nodup hl).2.2 h)

end Legal

theorem classify_of_no_row {opc : Opc} {w : Word} (hw : w ≠ 0#32)
    (hAB : ∀ op, (fieldOpAB w, op) ∉ opc.tabAB) (hC : ∀ op, (fieldOpC w, op) ∉ opc.tabC)
    (hD : ∀ op, (fieldOpD w, op) ∉ opc.tabD) : classify opc w = .unrecognized :=
  classify_of_lookup_none hw (lookup_none_of_no_row hAB) (lookup_none_of_no_row hC)
    (lookup_none_of_no_row hD)

/-- The reference assignment with the key of `SALTAR` moved under that of `CARGAR`, against W2. -/
def opcOverlapping : Opc := { opcRef with tabC := (0x8, .saltar) :: opcRef.tabC.tail }

/-- The word 0x4000 matches the rows of both `CARGAR` and `SALTAR`; the A/B table is tried first. -/
theorem classify_opcOverlapping : opcOverlapping.legal = false ∧
    (fieldOpC 0x4000#32, OpC.saltar) ∈ opcOverlapping.tabC ∧
    classify opcOverlapping 0x4000#32 = .A .cargar .R0 0 := by decide

/-! ## The opcode fields of a word and the keys of `OPC_REF` as numbers (R82) -/

theorem toNat_fieldOpAB (w : Word) : (fieldOpAB w).toNat = w.toNat / 0x4000 := by
  rw [fieldOpAB, toNat_slice]; omega

theorem toNat_fieldOpC (w : Word) : (fieldOpC w).toNat = w.toNat / 0x800 := by
  rw [fieldOpC, toNat_slice]; omega

theorem toNat_fieldOpD (w : Word) : (fieldOpD w).toNat = w.toNat / 0x40 := by
  rw [fieldOpD, toNat_slice]; omega

theorem opcRef_legal : opcRef.legal = true := by decide

/-- The rows of a table whose keys are consecutive, as the spec lists those of `OPC_REF` (R82). -/
theorem exists_row_iff_of_consecutive {m : Nat} {α : Type} {k : BitVec m}
    {tab : List (BitVec m × α)} {lo n : Nat}
    (h : tab.map (fun row => row.1.toNat) = List.range' lo n) :
    (∃ op, (k, op) ∈ tab) ↔ lo ≤ k.toNat ∧ k.toNat < lo + n := by
  rw [← List.mem_range'_1, ← h, List.mem_map]
  constructor
  · rintro ⟨op, hm⟩
    exact ⟨_, hm, rfl⟩
  · rintro ⟨⟨k', op⟩, hm, hk⟩
    exact ⟨op, BitVec.eq_of_toNat_eq hk ▸ hm⟩

theorem opcRef_row_ab_iff {k : BitVec 18} :
    (∃ op, (k, op) ∈ opcRef.tabAB) ↔ 1 ≤ k.toNat ∧ k.toNat < 1 + 8 :=
  exists_row_iff_of_consecutive (by decide)

theorem opcRef_row_c_iff {k : BitVec 21} :
    (∃ op, (k, op) ∈ opcRef.tabC) ↔ 0x48 ≤ k.toNat ∧ k.toNat < 0x48 + 8 :=
  exists_row_iff_of_consecutive (by decide)

theorem opcRef_row_d_iff {k : BitVec 26} :
    (∃ op, (k, op) ∈ opcRef.tabD) ↔ 0xA00 ≤ k.toNat ∧ k.toNat < 0xA00 + 12 :=
  exists_row_iff_of_consecutive (by decide)

/-! ## The word classes of `OPC_REF` (R85) -/

section Classes

variable {w : Word}

theorem word_ne_zero (h : 1 ≤ w.toNat) : w ≠ 0#32 := by
  rintro rfl
  simp at h

/-- A word outside the ranges of the three tables matches no row. -/
theorem classify_opcRef_unrecognized (h : 1 ≤ w.toNat)
    (hout : w.toNat < 0x4000 ∨ 0x28300 ≤ w.toNat) : classify opcRef w = .unrecognized := by
  have hAB := toNat_fieldOpAB w
  have hC := toNat_fieldOpC w
  have hD := toNat_fieldOpD w
  refine classify_of_no_row (word_ne_zero h) (fun op hm => ?_) (fun op hm => ?_) fun op hm => ?_
  · have := opcRef_row_ab_iff.1 ⟨op, hm⟩; omega
  · have := opcRef_row_c_iff.1 ⟨op, hm⟩; omega
  · have := opcRef_row_d_iff.1 ⟨op, hm⟩; omega

theorem classify_opcRef_ab (h : 0x4000 ≤ w.toNat ∧ w.toNat ≤ 0x23FFF) :
    (∃ op, (fieldOpAB w, OpAB.a op) ∈ opcRef.tabAB ∧
      classify opcRef w = .A op (fieldR w) (fieldLow w)) ∨
    ∃ op, (fieldOpAB w, OpAB.b op) ∈ opcRef.tabAB ∧
      classify opcRef w = .B op (fieldR w) (fieldLow w) := by
  have hw : w ≠ 0#32 := word_ne_zero (by omega)
  have hk := toNat_fieldOpAB w
  obtain ⟨op | op, hm⟩ := (opcRef_row_ab_iff (k := fieldOpAB w)).2 (by omega)
  · exact .inl ⟨op, hm, classify_of_row_a opcRef_legal hw hm⟩
  · exact .inr ⟨op, hm, classify_of_row_b opcRef_legal hw hm⟩

theorem classify_opcRef_c (h : 0x24000 ≤ w.toNat ∧ w.toNat ≤ 0x27FFF) :
    ∃ op, (fieldOpC w, op) ∈ opcRef.tabC ∧ classify opcRef w = .C op (fieldLow w) := by
  have hk := toNat_fieldOpC w
  obtain ⟨op, hm⟩ := (opcRef_row_c_iff (k := fieldOpC w)).2 (by omega)
  exact ⟨op, hm, classify_of_row_c opcRef_legal (word_ne_zero (by omega)) hm⟩

theorem classify_opcRef_d (h : 0x28000 ≤ w.toNat ∧ w.toNat ≤ 0x282FF) :
    ∃ op, (fieldOpD w, op) ∈ opcRef.tabD ∧ classify opcRef w = .D op (fieldR1 w) (fieldR2 w) := by
  have hk := toNat_fieldOpD w
  obtain ⟨op, hm⟩ := (opcRef_row_d_iff (k := fieldOpD w)).2 (by omega)
  exact ⟨op, hm, classify_of_row_d opcRef_legal (word_ne_zero (by omega)) hm⟩

end Classes

namespace Machine

/-! ## Words as strings (R92) -/

@[simp] theorem wordString_length (w : Word) : (wordString w).length = 32 := by simp [wordString]

theorem wordString_getElem? (w : Word) {i : Nat} (hi : i < 32) :
    (wordString w)[i]? = some (if w.getLsbD (31 - i) then '1' else '0') := by
  simp [wordString, hi]

theorem wordString_binary (w : Word) : ∀ c ∈ wordString w, c = '0' ∨ c = '1' := by
  intro c hc
  obtain ⟨i, -, rfl⟩ := List.mem_map.1 hc
  cases w.getLsbD (31 - i) <;> simp

theorem bitsValue_concat (bits : List Char) (c : Char) :
    bitsValue (bits ++ [c]) = bitsValue bits * 2 + if c = '1' then 1 else 0 := by
  simp [bitsValue]

/-- Bit `i` of a bit string's value is its `i`-th character from the right. -/
theorem testBit_bitsValue (bits : List Char) (i : Nat) :
    (bitsValue bits).testBit i = decide (bits.reverse[i]? = some '1') := by
  induction bits using List.reverseRecOn generalizing i with
  | nil => simp [bitsValue]
  | append_singleton bits c ih =>
    rw [bitsValue_concat, List.reverse_concat]
    cases i with
    | zero =>
      rw [Nat.testBit_zero]
      by_cases hc : c = '1' <;> simp [hc]
    | succ i =>
      have hhalf : (bitsValue bits * 2 + if c = '1' then 1 else 0) / 2 = bitsValue bits := by
        split <;> omega
      rw [Nat.testBit_succ, hhalf, ih, List.getElem?_cons_succ]

/-- Character `i` of a 32-character string is bit `31 - i` of its value. -/
theorem getLsbD_bitsValue {cs : List Char} (hlen : cs.length = 32) {i : Nat} (hi : i < 32) :
    (BitVec.ofNat 32 (bitsValue cs)).getLsbD (31 - i) = decide (cs[i]? = some '1') := by
  rw [BitVec.getLsbD_ofNat, testBit_bitsValue, List.getElem?_reverse (by omega), hlen]
  have hlt : 31 - i < 32 := by omega
  have hback : 32 - 1 - (31 - i) = i := by omega
  simp [hlt, hback]

theorem wordOfString_eq_some_iff {cs : List Char} {w : Word} : wordOfString cs = some w ↔
    cs.length = 32 ∧ (∀ c ∈ cs, c = '0' ∨ c = '1') ∧ BitVec.ofNat 32 (bitsValue cs) = w := by
  simp [wordOfString, and_assoc]

theorem wordOfString_wordString (w : Word) : wordOfString (wordString w) = some w := by
  refine wordOfString_eq_some_iff.2 ⟨wordString_length w, wordString_binary w, ?_⟩
  refine BitVec.eq_of_getLsbD_eq fun j hj => ?_
  obtain ⟨i, hi, rfl⟩ : ∃ i, i < 32 ∧ j = 31 - i := ⟨31 - j, by omega, by omega⟩
  rw [getLsbD_bitsValue (wordString_length w) hi, wordString_getElem? w hi]
  cases w.getLsbD (31 - i) <;> simp

theorem wordString_of_wordOfString {cs : List Char} {w : Word} (h : wordOfString cs = some w) :
    wordString w = cs := by
  obtain ⟨hlen, hbin, rfl⟩ := wordOfString_eq_some_iff.1 h
  refine List.ext_getElem (by simp [hlen]) fun i hi hi' => ?_
  have hi32 : i < 32 := hlen ▸ hi'
  rw [← Option.some_inj, ← List.getElem?_eq_getElem, wordString_getElem? _ hi32,
    getLsbD_bitsValue hlen hi32, List.getElem?_eq_getElem hi']
  obtain h0 | h1 := hbin _ (List.getElem_mem hi')
  · simp [h0]
  · simp [h1]

/-! ## The obligations of the encoding -/

/-- Settles O9: a matched row fixes the result, since W2 and W3 keep the words of the tables apart; and
under an assignment against W2 the table tried first wins. -/
theorem decodingIsAnUnorderedRowMatch : Obligations.DecodingIsAnUnorderedRowMatch := by
  refine ⟨fun opc w hl hw => ⟨fun _ => classify_of_row_a hl hw, fun _ => classify_of_row_b hl hw,
    fun _ => classify_of_row_c hl hw, fun _ => classify_of_row_d hl hw,
    classify_of_no_row hw⟩, ?_⟩
  obtain ⟨hillegal, hrow, hA⟩ := classify_opcOverlapping
  exact ⟨opcOverlapping, 0x4000#32, .saltar, hillegal, by decide, hrow, by simp [hA]⟩

/-- Settles O10: the range of a word is the range of its opcode fields, and the keys of each table are
consecutive. -/
theorem wordClassesOfTheReferenceAssignment : Obligations.WordClassesOfTheReferenceAssignment := by
  intro w
  have hAB := toNat_fieldOpAB w
  have hC := toNat_fieldOpC w
  have hD := toNat_fieldOpD w
  refine ⟨fun h => ?_, fun h1 h2 => ?_, fun h1 h2 => ?_, fun h1 h2 => ?_, fun h1 h2 => ?_,
    fun h => ?_⟩
  · obtain rfl : w = 0#32 := BitVec.eq_of_toNat_eq h
    exact classify_zero opcRef
  · exact ⟨classify_opcRef_unrecognized h1 (by omega), by omega, by omega, by omega⟩
  · exact ⟨by omega, by omega, classify_opcRef_ab ⟨h1, h2⟩⟩
  · exact ⟨by omega, by omega, classify_opcRef_c ⟨h1, h2⟩⟩
  · exact ⟨by omega, by omega, classify_opcRef_d ⟨h1, h2⟩⟩
  · exact classify_opcRef_unrecognized (by omega) (by omega)

/-- Settles O59: a string and its word have the same bits, position by position. -/
theorem wordStringsAreLossless : Obligations.WordStringsAreLossless :=
  ⟨fun w => ⟨wordString_length w, wordOfString_wordString w, fun _ => wordString_getElem? w⟩,
    fun _ _ => wordString_of_wordOfString⟩

end Machine

end Sys2Proof
end

section
/-! The engine cycle: what it does at the end of memory, on the halt word and on an unrecognized word
(`40_execution_engine.md` R101, R102, R103, R105). -/

namespace Sys2Proof

/-! ## The two words that are no operation (R83, R86) -/

@[simp] theorem decode_zero (opc : Opc) : decode opc 0#32 = some .parar := by
  rw [decode, classify_zero, Decoded.instr?]

/-- Only an unrecognized word stands for no instruction. -/
theorem decode_eq_none_iff {opc : Opc} {w : Word} :
    decode opc w = none ↔ classify opc w = .unrecognized := by
  rw [decode]
  cases classify opc w <;> simp [Decoded.instr?]

namespace Machine

/-! ## A step inside memory (R101) -/

/-- The fetched word is decoded and executed (R104). -/
theorem step_of_decode_some {s : State} {i : Instr} (hr : s.run = .running)
    (hpc : s.pc < s.params.memSize) (hd : decode s.params.opc (s.mem.readWord s.pc) = some i) :
    step s = exec i s := by
  simp only [step_running hr, cycle, State.fetch_inside hpc, hd]

/-- A fetched word that stands for no instruction is reported, and `pc` moves on (R105). -/
theorem step_of_decode_none {s : State} (hr : s.run = .running) (hpc : s.pc < s.params.memSize)
    (hd : decode s.params.opc (s.mem.readWord s.pc) = none) :
    step s = .next (s.report .unrecognizedOpcode).advance := by
  simp only [step_running hr, cycle, State.fetch_inside hpc, hd, unrecognizedCycle]

theorem exec_parar (s : State) : exec .parar s = .next (s.halt .haltWord) := rfl

/-! ## The obligations of the engine -/

/-- Settles O12: past the end of memory the step is a halt, and a launched engine is running. -/
theorem endOfMemoryHaltsWithoutAFetch : Obligations.EndOfMemoryHaltsWithoutAFetch := by
  refine ⟨fun s => step_endOfMemory, fun p x f d m entry h => ?_⟩
  exact ⟨_, step_endOfMemory (s := State.launch p x f d m entry) rfl h, rfl, rfl, rfl, rfl, rfl, rfl⟩

/-- Settles O13: the word 0 is `PARAR` under every assignment, `PARAR` halts, and a halted state does
not step. -/
theorem haltWordHalts : Obligations.HaltWordHalts := by
  refine fun s => ⟨exec_parar s, fun hr hpc hw => ?_, step_halted rfl⟩
  have hd : decode s.params.opc (s.mem.readWord s.pc) = some .parar := hw ▸ decode_zero s.params.opc
  exact (step_of_decode_some hr hpc hd).trans (exec_parar s)

/-- Settles O14: an unrecognized word stands for no instruction, so its step is the report alone. -/
theorem unrecognizedWordIsAReportedNoOp : Obligations.UnrecognizedWordIsAReportedNoOp :=
  fun _ hr hpc hc => step_of_decode_none hr hpc (decode_eq_none_iff.2 hc)

end Machine

end Sys2Proof
end

section
/-! The register-memory instructions: `CARGAR` and `ALMACENAR` (`41_register_memory.md` R120, R121). -/

namespace Sys2Proof.Machine

open Sys2Proof.Claims

/-- One register write followed by `pc + 1` is the whole effect of an instruction that puts one
register. -/
theorem putsOneRegister_setReg_advance (s : State) (r : Reg) (v : Word) :
    PutsOneRegister s (s.setReg r v).advance r v :=
  ⟨Regs.get_set_same s.x r v, fun _ hr => Regs.get_set_other s.x v (List.mem_singleton.not.1 hr),
    rfl, rfl, fun _ => rfl, ⟨rfl, rfl, rfl⟩, rfl⟩

/-! ## A word write on the word it writes and on every other byte (R60) -/

theorem Memory.readWord_writeWord_same {m : Memory} (a : Nat) (v : Word) (h : m.wf = true) :
    (m.writeWord a v).readWord a = v := by
  rw [Memory.readWord_writeWord a a v h, if_pos rfl]

theorem Memory.readByte_writeWord_other {m : Memory} {a b : Nat} (v : Word) (h : m.wf = true)
    (hb : b < 4 * a ∨ 4 * a + 4 ≤ b) : (m.writeWord a v).readByte b = m.readByte b := by
  rw [Memory.readByte_writeWord a b v h, if_neg (by omega)]

/-! ## The obligations of the register-memory instructions -/

/-- Settles O31: inside memory the effect is one word write, which reads back as the register and
reaches no byte outside its word; past memory it is `raise` alone. -/
theorem almacenarStoresAWord : Obligations.AlmacenarStoresAWord := by
  intro s r addr hwf
  constructor
  · intro hin
    exact ⟨_, execAlmacenar_inside hin, Memory.readWord_writeWord_same _ _ hwf, rfl,
      fun _ => Memory.readByte_writeWord_other _ hwf, fun _ _ => rfl, rfl, rfl, ⟨rfl, rfl, rfl⟩, rfl⟩
  · intro hout
    exact execAlmacenar_outside (Nat.not_lt.2 hout)

/-- Settles O30: inside memory the effect is one register write; past memory it is `raise` alone. -/
theorem cargarLoadsAWord : Obligations.CargarLoadsAWord := by
  intro s r addr
  constructor
  · intro hin
    exact ⟨_, execCargar_inside hin, putsOneRegister_setReg_advance s r _⟩
  · intro hout
    exact execCargar_outside (Nat.not_lt.2 hout)

end Sys2Proof.Machine
end

section
/-! The register-immediate instructions: the shifts, the rotations and `CARGARVALOR`
(`42_register_immediate.md` R130 to R136). -/

namespace Sys2Proof.Machine

open Sys2Proof.Claims

/-- The family's shape (R130): the whole effect is one register write, so a fact about the word
written is a fact about the answer. -/
theorem answers_putRegister {s : State} {r : Reg} {v : Word} {P : Word → Prop} (h : P v) :
    Answers (s.putRegister r v) fun t => ∃ w : Word, PutsOneRegister s t r w ∧ P w :=
  ⟨_, rfl, v, putsOneRegister_setReg_advance s r v, h⟩

/-! ## The word functions as bit-vector operations

Each formula is a product or a quotient by a power of two, which is a shift; a shift by 32 or more
is the corner case the model writes out. -/

theorem ofNat_mul_two_pow (v : Word) (n : Nat) : BitVec.ofNat 32 (v.toNat * 2 ^ n) = v <<< n :=
  BitVec.eq_of_toNat_eq (by rw [BitVec.toNat_ofNat, BitVec.toNat_shiftLeft, Nat.shiftLeft_eq])

theorem ofNat_div_two_pow (v : Word) (n : Nat) : BitVec.ofNat 32 (v.toNat / 2 ^ n) = v >>> n := by
  rw [← Nat.shiftRight_eq_div_pow, ← BitVec.toNat_ushiftRight, BitVec.ofNat_toNat,
    BitVec.setWidth_eq]

theorem maskWord_div_two_pow (v : Word) (n : Nat) :
    maskWord (v.toInt / 2 ^ n) = v.sshiftRight n := by
  rw [maskWord, BitVec.sshiftRight_eq, Int.shiftRight_eq_div_pow]
  rfl

/-- From 31 on every bit of an arithmetic shift is the sign (R133). -/
theorem sshiftRight_of_ge {v : Word} {k : Nat} (hk : 31 ≤ k) :
    v.sshiftRight k = if v.msb then 0xFFFFFFFF#32 else 0#32 := by
  have hbit : ∀ i, i < 32 → (v.sshiftRight k).getLsbD i = v.msb := by
    intro i hi
    rw [BitVec.getLsbD_sshiftRight, BitVec.msb_eq_getLsbD_last]
    by_cases h : k + i < 32
    · obtain ⟨rfl, rfl⟩ : k = 31 ∧ i = 0 := by omega
      simp
    · simp [h, hi]
  refine BitVec.eq_of_getLsbD_eq fun i hi => ?_
  rw [hbit i hi]
  cases v.msb
  · simp
  · exact (BitVec.getLsbD_allOnes.trans (decide_eq_true hi)).symm

theorem lslWord_eq_shiftLeft (v : Word) (k : Nat) : lslWord v k = v <<< k := by
  by_cases h : k < 32
  · rw [lslWord, if_pos h, ofNat_mul_two_pow]
  · rw [lslWord, if_neg h, BitVec.shiftLeft_eq_zero (Nat.not_lt.1 h)]

theorem lsrWord_eq_ushiftRight (v : Word) (k : Nat) : lsrWord v k = v >>> k := by
  by_cases h : k < 32
  · rw [lsrWord, if_pos h, ofNat_div_two_pow]
  · rw [lsrWord, if_neg h, BitVec.ushiftRight_eq_zero (Nat.not_lt.1 h)]

theorem asrWord_eq_sshiftRight (v : Word) (k : Nat) : asrWord v k = v.sshiftRight k := by
  by_cases h : k < 32
  · rw [asrWord, if_pos h, maskWord_div_two_pow]
  · rw [asrWord, if_neg h, sshiftRight_of_ge (by omega), BitVec.msb_eq_getLsbD_last]

theorem rotlWord_eq_rotateLeft (v : Word) (k : Nat) : rotlWord v k = v.rotateLeft k := by
  rw [rotlWord, ofNat_mul_two_pow, ofNat_div_two_pow, BitVec.rotateLeft_def]

theorem rotrWord_eq_rotateRight (v : Word) (k : Nat) : rotrWord v k = v.rotateRight k := by
  rw [rotrWord, ofNat_mul_two_pow, ofNat_div_two_pow, BitVec.rotateRight_def]

/-! ## The formulas of the spec, for every amount -/

theorem toNat_lslWord (v : Word) (k : Nat) : (lslWord v k).toNat = v.toNat * 2 ^ k % 2 ^ 32 := by
  rw [lslWord_eq_shiftLeft, BitVec.toNat_shiftLeft, Nat.shiftLeft_eq]

theorem toNat_lsrWord (v : Word) (k : Nat) : (lsrWord v k).toNat = v.toNat / 2 ^ k := by
  rw [lsrWord_eq_ushiftRight, BitVec.toNat_ushiftRight, Nat.shiftRight_eq_div_pow]

theorem toNat_asrWord (v : Word) (k : Nat) :
    ((asrWord v k).toNat : Int) = v.toInt / 2 ^ k % 2 ^ 32 := by
  rw [asrWord_eq_sshiftRight, ← maskWord_div_two_pow, toNat_maskWord]

theorem toNat_rotlWord (v : Word) (k : Nat) : (rotlWord v k).toNat =
    (v.toNat * 2 ^ (k % 32) % 2 ^ 32) ||| (v.toNat / 2 ^ (32 - k % 32)) := by
  rw [rotlWord_eq_rotateLeft, BitVec.toNat_rotateLeft, Nat.shiftLeft_eq, Nat.shiftRight_eq_div_pow]

theorem toNat_rotrWord (v : Word) (k : Nat) : (rotrWord v k).toNat =
    (v.toNat / 2 ^ (k % 32)) ||| (v.toNat * 2 ^ (32 - k % 32) % 2 ^ 32) := by
  rw [rotrWord_eq_rotateRight, BitVec.toNat_rotateRight, Nat.shiftLeft_eq,
    Nat.shiftRight_eq_div_pow]

/-- Zero extension keeps the number (R78). -/
theorem toNat_immediate (k : Field11) : (immediate k).toNat = k.toNat :=
  BitVec.toNat_setWidth_of_le (by decide)

/-! ## The corner cases and the single bits -/

theorem lslWord_of_ge {v : Word} {k : Nat} (hk : 32 ≤ k) : lslWord v k = 0#32 :=
  if_neg (Nat.not_lt.2 hk)

theorem lsrWord_of_ge {v : Word} {k : Nat} (hk : 32 ≤ k) : lsrWord v k = 0#32 :=
  if_neg (Nat.not_lt.2 hk)

theorem asrWord_of_ge {v : Word} {k : Nat} (hk : 31 ≤ k) :
    asrWord v k = if v.msb then 0xFFFFFFFF#32 else 0#32 := by
  rw [asrWord_eq_sshiftRight, sshiftRight_of_ge hk]

/-- A left rotation moves bit `j` to bit `j + k` modulo 32; the bits that pass bit 31 enter below
(R135). -/
theorem getLsbD_rotlWord (v : Word) (k : Nat) {j : Nat} (hj : j < 32) :
    (rotlWord v k).getLsbD ((j + k) % 32) = v.getLsbD j := by
  rw [rotlWord_eq_rotateLeft, BitVec.getLsbD_rotateLeft]
  by_cases hwrap : j + k % 32 < 32
  · have hi : (j + k) % 32 = j + k % 32 := by omega
    simp [hi, hwrap]
  · have hi : (j + k) % 32 = j + k % 32 - 32 := by omega
    have hlow : j + k % 32 - 32 < k % 32 := by omega
    have hsrc : 32 - k % 32 + (j + k % 32 - 32) = j := by omega
    simp [hi, hlow, hsrc]

/-- A right rotation takes bit `j` from bit `j + k` modulo 32 (R136). -/
theorem getLsbD_rotrWord (v : Word) (k : Nat) {j : Nat} (hj : j < 32) :
    (rotrWord v k).getLsbD j = v.getLsbD ((j + k) % 32) := by
  rw [rotrWord_eq_rotateRight, BitVec.getLsbD_rotateRight]
  by_cases hwrap : j < 32 - k % 32
  · have hi : (j + k) % 32 = k % 32 + j := by omega
    simp [hi, hwrap]
  · have hi : (j + k) % 32 = j - (32 - k % 32) := by omega
    simp [hi, hwrap, hj]

/-! ## The obligations of the register-immediate instructions -/

/-- Settles O32: each shift puts its word in the register, and the word's formula holds for every
amount, since the model's corner case is the same bit-vector shift as the formula below 32. -/
theorem shiftsComputeTheirFormulas : Obligations.ShiftsComputeTheirFormulas := by
  intro s r k
  refine ⟨?_, ?_, ?_⟩
  · exact answers_putRegister ⟨toNat_lslWord (s.x.get r) k.toNat, lslWord_of_ge⟩
  · exact answers_putRegister ⟨toNat_lsrWord (s.x.get r) k.toNat, lsrWord_of_ge⟩
  · exact answers_putRegister ⟨toNat_asrWord (s.x.get r) k.toNat, asrWord_of_ge⟩

/-- Settles O34: each rotation puts its word in the register, and that word is both the formula of
its rule and the rotation of every bit. -/
theorem rotationsMoveEveryBit : Obligations.RotationsMoveEveryBit := by
  intro s r k
  constructor
  · exact answers_putRegister ⟨toNat_rotlWord (s.x.get r) k.toNat, fun _ => getLsbD_rotlWord _ _⟩
  · exact answers_putRegister ⟨toNat_rotrWord (s.x.get r) k.toNat, fun _ => getLsbD_rotrWord _ _⟩

/-- Settles O33: the word put is the immediate, a number of 11 bits. -/
theorem cargarValorLoadsTheImmediate : Obligations.CargarValorLoadsTheImmediate := by
  intro s r k
  have hk : (immediate k).toNat ≤ 2047 := by
    rw [toNat_immediate]
    exact Nat.le_of_lt_succ k.isLt
  exact answers_putRegister ⟨toNat_immediate k, hk⟩

end Sys2Proof.Machine
end

section
/-! The jumps: `SALTAR` and the seven conditional jumps (`43_jump.md` R150 to R158). -/

namespace Sys2Proof.Machine

open Sys2Proof.Claims

/-- The family's shape (R150): `jumpOf` names a jump's condition and target, and setting `pc` by them
is its whole effect. -/
theorem exec_of_jumpOf {s : State} {i : Instr} {cond : Bool} {target : Field11}
    (h : jumpOf s.flags i = some (cond, target)) : exec i s = .next (s.jumpIf cond target) := by
  obtain ⟨t, ht⟩ := exec_next i s
  rw [ht]
  cases exec_cases ht with
  | halts hi _ => subst hi; cases h
  | faults _ _ hi =>
    obtain ⟨-, _, _, rfl, -⟩ | ⟨-, _, _, rfl | rfl, -⟩ := hi <;> cases h
  | reports _ _ hi _ _ => subst hi; cases h
  | jumps _ _ hi he =>
    cases hi.symm.trans h
    rw [he]
  | stores _ _ hi _ _ => subst hi; cases h
  | computes _ hj _ _ _ _ => cases hj.symm.trans h

/-! ## The two polarities of a flag test -/

/-- A jump taken when its flag is set (R152, R154 to R157). -/
theorem exec_jumpIfSet {s : State} {i : Instr} {flag : Bool} {target : Field11}
    (h : jumpOf s.flags i = some (flag, target)) :
    exec i s = .next { s with pc := if flag = true then target.toNat else s.pc + 1 } :=
  exec_of_jumpOf h

/-- A jump taken when its flag is clear (R153, R158). -/
theorem exec_jumpIfClear {s : State} {i : Instr} {flag : Bool} {target : Field11}
    (h : jumpOf s.flags i = some (!flag, target)) :
    exec i s = .next { s with pc := if flag = false then target.toNat else s.pc + 1 } := by
  rw [exec_of_jumpOf h]
  cases flag <;> rfl

/-! ## The obligations of the jumps -/

/-- Settles O37: `SALTAR` is the jump whose condition always holds. -/
theorem saltarJumps : Obligations.SaltarJumps := by
  intro s t
  have hjump : jumpOf s.flags (.saltar t) = some (true, t) := rfl
  exact exec_of_jumpOf hjump

/-- Settles O38: `J_POS` and `J_NOVF` test for a clear flag, the other five for a set one. -/
theorem conditionalJumpsTestTheirFlag : Obligations.ConditionalJumpsTestTheirFlag := by
  intro s t
  refine ⟨?zero, ?pos, ?neg, ?par, ?carry, ?ovf, ?novf⟩
  case pos | novf => exact exec_jumpIfClear rfl
  case zero | neg | par | carry | ovf => exact exec_jumpIfSet rfl

end Sys2Proof.Machine
end

section
/-! The register-register instructions: the bitwise operations, the arithmetic and its flags, `DIV` and
`MOD`, and the copies (`44_register_register.md` R170 to R187). -/

namespace Sys2Proof.Machine

open Sys2Proof.Claims

/-! ## The flag primitives on integers (R171) -/

theorem carryAdd_iff (u : Int) : carryAdd u = true ↔ u > 0xFFFFFFFF := decide_eq_true_iff

/-- The borrow and the sign of a difference say which operand is smaller. -/
theorem borrow_unmaskedDifference_iff (a b : Word) :
    borrow (unmaskedDifference a b) = true ↔ (a.toNat : Int) < b.toNat :=
  decide_eq_true_iff.trans sub_neg

theorem negative_unmaskedDifference_iff (a b : Word) :
    negative (unmaskedDifference a b) = true ↔ (a.toNat : Int) < b.toNat :=
  decide_eq_true_iff.trans sub_neg

/-- The difference of two words is a multiple of `2^32` only at 0, so both bases see the same `Z`. -/
theorem zero_unmaskedDifference_iff (basis : ZeroBasis) (a b : Word) :
    zero basis (unmaskedDifference a b) = true ↔ (a.toNat : Int) = b.toNat := by
  cases basis with
  | unmasked => exact decide_eq_true_iff.trans sub_eq_zero
  | masked =>
    refine decide_eq_true_iff.trans ?_
    have ha := a.isLt
    have hb := b.isLt
    rw [unmaskedDifference]
    omega

theorem heur_iff_heuristic (a b : Word) (u : Int) :
    heur a b u = true ↔ Heuristic a.toNat b.toNat u := by
  rw [heur_iff, bit31_iff, bit31_iff, bit31_iff]
  rfl

/-- `Z`, `N` and `P` of the primitives are those that R171 states of the unmasked result. -/
theorem znpFrom_primitives (basis : ZeroBasis) (u : Int) (c v : Bool) :
    ZNPFrom basis u ⟨c, zero basis u, negative u, parity u, v⟩ := by
  refine ⟨?_, decide_eq_true_iff, decide_eq_true_iff⟩
  cases basis <;> exact decide_eq_true_iff

/-! ## Quotient, remainder and complement as numbers (R10, R182) -/

theorem cast_toNat_quotient (a b : Word) : ((quotient a b).toNat : Int) = a.toNat / b.toNat :=
  congrArg Nat.cast (toNat_quotient a b)

theorem cast_toNat_remainder (a b : Word) : ((remainder a b).toNat : Int) = a.toNat % b.toNat :=
  congrArg Nat.cast (toNat_remainder a b)

theorem toNat_complement (v : Word) : (complement v).toNat = 0xFFFFFFFF - v.toNat := by
  rw [complement_eq_not, BitVec.toNat_not]

theorem getLsbD_complement (v : Word) {j : Nat} (hj : j < 32) :
    (complement v).getLsbD j = !v.getLsbD j := by
  rw [complement_eq_not, BitVec.getLsbD_not, decide_eq_true hj, Bool.true_and]

/-! ## The family's shapes (R170) -/

theorem regsKeptBut_setReg (s : State) (r : Reg) (v : Word) : RegsKeptBut [r] s (s.setReg r v) :=
  fun _ hr => Regs.get_set_other s.x v (List.mem_singleton.not.1 hr)

theorem regsKeptBut_setReg2 (s : State) (r1 r2 : Reg) (v1 v2 : Word) :
    RegsKeptBut [r1, r2] s (s.setReg2 r1 v1 r2 v2) := by
  intro r hr
  obtain ⟨h1, h2⟩ : r ≠ r1 ∧ r ≠ r2 := by simpa using hr
  exact Regs.get_set2_other s.x v1 v2 h1 h2

/-- The shape of the operations that write no flag: where the flag unit writes nothing and draws nothing,
the whole effect is one register write, and a fact about the word written is a fact about the answer. -/
theorem answers_alu_of_no_flags {s : State} {op : OpD} {a b : Word} {dest : Reg} {v : Word}
    {P : Word → Prop} (hd : drawsFlags op b = false)
    (hf : ∀ basis d, flagUnit basis op a b d = .none) (h : P v) :
    Answers (s.alu op a b dest v) fun t => ∃ w : Word, PutsOneRegister s t dest w ∧ P w := by
  rw [State.alu, State.updateFlags, hf, hd]
  exact answers_putRegister (s := s) (r := dest) h

/-- The shape of `SUMAR`, `RESTAR` and `MULT`: the masked result `u` goes to the destination, all five
flags come from the primitives on `u`, and a fact about the carry or overflow bit the unit gives is a
fact about the flag in the answer. -/
theorem answers_arithmetic {s : State} {op : OpD} {a b : Word} {dest : Reg} {u : Int} {c v : Bool}
    {carry overflow : Prop} (hd : drawsFlags op b = false)
    (hf : ∀ d, flagUnit s.params.zeroBasis op a b d =
      .all ⟨c, zero s.params.zeroBasis u, negative u, parity u, v⟩)
    (hc : c = true ↔ carry) (hv : v = true ↔ overflow) :
    Answers (s.alu op a b dest (maskWord u)) fun t =>
      val t dest = u % 2 ^ 32 ∧ (t.flags.C = true ↔ carry) ∧ (t.flags.V = true ↔ overflow) ∧
      ZNPFrom s.params.zeroBasis u t.flags ∧ RegsKeptBut [dest] s t ∧ t.pc = s.pc + 1 ∧
      MemoryKept s t ∧ ControlKept s t ∧ t.draws = s.draws := by
  have hval : (((s.x.set dest (maskWord u)).get dest).toNat : Int) = u % 2 ^ 32 := by
    rw [Regs.get_set_same, toNat_maskWord]
  rw [State.alu, State.updateFlags, State.setReg_params, hf, hd]
  exact ⟨_, rfl, hval, hc, hv, znpFrom_primitives _ u c v, regsKeptBut_setReg s dest _, rfl,
    fun _ => rfl, ⟨rfl, rfl, rfl⟩, rfl⟩

/-! ## The obligations of the register-register instructions -/

/-- Settles O42: the carry is a magnitude check, and the overflow is that check or the heuristic. -/
theorem sumarAddsAndSetsEveryFlag : Obligations.SumarAddsAndSetsEveryFlag := by
  intro s r1 r2
  refine answers_arithmetic (op := .sumar) rfl (fun _ => rfl) (carryAdd_iff _) ?_
  rw [Bool.or_eq_true, carryAdd_iff, heur_iff_heuristic]
  rfl

/-- Settles O43: the carry is the borrow of the difference, and the overflow the heuristic. -/
theorem restarSubtractsAndSetsEveryFlag : Obligations.RestarSubtractsAndSetsEveryFlag := by
  intro s r1 r2
  exact answers_arithmetic (op := .restar) rfl (fun _ => rfl) (borrow_unmaskedDifference_iff _ _)
    (heur_iff_heuristic _ _ _)

/-- Settles O44: the carry is a magnitude check on the whole product, and the overflow the
heuristic. -/
theorem multMultipliesAndSetsEveryFlag : Obligations.MultMultipliesAndSetsEveryFlag := by
  intro s r1 r2
  exact answers_arithmetic (op := .mult) rfl (fun _ => rfl) (carryAdd_iff _)
    (heur_iff_heuristic _ _ _)

/-- Settles O45: by a non-zero divisor two register writes, the remainder last; by 0 `raise` alone. -/
theorem divDividesOrFaults : Obligations.DivDividesOrFaults := by
  intro s r1 r2
  refine ⟨fun hb => ⟨_, execDiv_nonzero hb, fun hne => ?_, ?_, rfl, rfl,
    regsKeptBut_setReg2 s r1 r2 _ _, rfl, fun _ => rfl, ⟨rfl, rfl, rfl⟩⟩, execDiv_zero⟩
  · simp [val, Regs.get_set2, hne, cast_toNat_quotient]
  · simp [val, Regs.get_set2, cast_toNat_remainder]

/-- Settles O46: by a non-zero divisor one register write; by 0 a report, whose word is the one at `pc`,
which a fetch also gives. -/
theorem modReducesOrReports : Obligations.ModReducesOrReports := by
  intro s r1 r2
  constructor
  · intro hb
    refine ⟨_, execMod_nonzero hb, ?_, ?_, ?_, regsKeptBut_setReg s r1 _, rfl, fun _ => rfl,
      ⟨rfl, rfl, rfl⟩⟩
    · simp [val, cast_toNat_remainder]
    · simp [flagUnit, hb, State.drawn]
    · simp [drawsFlags, hb]
  · intro hb
    exact ⟨_, execMod_zero hb, s.mem.readWord s.pc, rfl, fun _ hv => (State.fetch_eq_some.1 hv).2⟩

/-- Settles O48: the three flags are facts about the difference, and the unit enables no other. -/
theorem compWritesThreeFlags : Obligations.CompWritesThreeFlags := by
  intro s r1 r2
  exact ⟨_, rfl, zero_unmaskedDifference_iff _ _ _, negative_unmaskedDifference_iff _ _,
    borrow_unmaskedDifference_iff _ _, rfl, rfl, fun _ _ => rfl, rfl, fun _ => rfl,
    ⟨rfl, rfl, rfl⟩, rfl⟩

/-- Settles O40: each operation only puts a register, and its word is the operation on every bit. -/
theorem bitwiseOperationsWriteR1 : Obligations.BitwiseOperationsWriteR1 := by
  intro s r1 r2
  refine ⟨?_, ?_, ?_⟩
  · exact answers_alu_of_no_flags (op := .or) rfl (fun _ _ => rfl) fun _ => BitVec.getLsbD_or
  · exact answers_alu_of_no_flags (op := .and) rfl (fun _ _ => rfl) fun _ => BitVec.getLsbD_and
  · exact answers_alu_of_no_flags (op := .xor) rfl (fun _ _ => rfl) fun _ => BitVec.getLsbD_xor

/-- Settles O41: `NOT` only puts a register, and the word put is the complement of the named one. -/
theorem notComplementsTheNamedOperand : Obligations.NotComplementsTheNamedOperand := by
  intro s r1 r2
  refine answers_alu_of_no_flags (op := .not) rfl (fun _ _ => rfl)
    ⟨fun h => ?_, fun h => ?_, fun _ => getLsbD_complement _⟩
  all_goals
    rw [h, toNat_complement]
    rfl

/-- Settles O47: only `r2` is put, and where it is `r1` it gets the value it had. -/
theorem copiarCopiesR1ToR2 : Obligations.CopiarCopiesR1ToR2 := by
  intro s r1 r2
  refine ⟨_, rfl, putsOneRegister_setReg_advance s r2 _, ?_⟩
  simp [Regs.get_set]

/-- Settles O49: both old values are written, and where the registers are one they are one value. -/
theorem intercambiarSwaps : Obligations.IntercambiarSwaps := by
  intro s r1 r2
  refine ⟨_, rfl, ?_, ?_, regsKeptBut_setReg2 s r1 r2 _ _, rfl, rfl, fun _ => rfl,
    ⟨rfl, rfl, rfl⟩, rfl⟩
  · by_cases h : r1 = r2 <;> simp [Regs.get_set2, h]
  · simp [Regs.get_set2]

end Sys2Proof.Machine
end

section
/-! The run-time conditions: when a step halts, faults or reports, and that nothing else ends a run or
reaches the log (`60_exceptions.md` R221, R222, R223). -/

namespace Sys2Proof

/-! ## The halt word is the only word of `PARAR` (R83, R86) -/

theorem classify_eq_halt_iff {opc : Opc} {w : Word} : classify opc w = .halt ↔ w = 0#32 := by
  refine ⟨fun h => by_contra fun hw => ?_, fun hw => hw ▸ classify_zero opc⟩
  rw [classify, if_neg hw] at h
  cases hAB : opc.tabAB.lookup (fieldOpAB w) with
  | some op => cases op <;> simp [hAB] at h
  | none =>
    cases hC : opc.tabC.lookup (fieldOpC w) with
    | some op => simp [hAB, hC] at h
    | none => cases hD : opc.tabD.lookup (fieldOpD w) <;> simp [hAB, hC, hD] at h

theorem decode_eq_parar_iff {opc : Opc} {w : Word} : decode opc w = some .parar ↔ w = 0#32 := by
  refine ⟨fun h => ?_, fun hw => hw ▸ decode_zero opc⟩
  exact classify_eq_halt_iff.1 (Decoded.decoded_of_instr? h).symm

namespace Machine

/-! ## The step of the instruction at `pc` (R101) -/

theorem State.current_eq_some_iff {s : State} {i : Instr} : s.current = some i ↔
    s.pc < s.params.memSize ∧ decode s.params.opc (s.mem.readWord s.pc) = some i := by
  by_cases hpc : s.pc < s.params.memSize
  · rw [State.current_inside hpc, and_iff_right hpc]
  · simp [State.current_outside (Nat.not_lt.1 hpc), hpc]

theorem step_of_current {s : State} {i : Instr} (hr : s.run = .running) (hi : s.current = some i) :
    step s = exec i s := by
  obtain ⟨hpc, hd⟩ := State.current_eq_some_iff.1 hi
  exact step_of_decode_some hr hpc hd

theorem step_unique {s t u : State} (h : step s = .next t) (hu : step s = .next u) : t = u :=
  Host.Outcome.next.inj (h.symm.trans hu)

/-! ## When a step halts, faults or reports (R221) -/

/-- The condition under which a cycle halts for a reason (R102, R103). -/
def State.haltsWith (s : State) : HaltReason → Prop
  | .endOfMemory => s.params.memSize ≤ s.pc
  | .haltWord => s.pc < s.params.memSize ∧ s.mem.readWord s.pc = 0#32

/-- The condition under which a cycle faults for a reason (R52, R182). -/
def State.faultsWith (s : State) : FaultReason → Prop
  | .divByZero => ∃ r1 r2, s.current = some (.div r1 r2) ∧ s.x.get r2 = 0#32
  | .memBounds => ∃ r addr,
      (s.current = some (.cargar r addr) ∨ s.current = some (.almacenar r addr)) ∧
        s.params.memSize ≤ address addr

/-- The condition under which a cycle makes a report of a kind (R105, R186). -/
def State.reportsWith (s : State) : ReportKind → Prop
  | .unrecognizedOpcode => s.pc < s.params.memSize ∧ s.current = none
  | .modByZero => ∃ r1 r2, s.current = some (.mod r1 r2) ∧ s.x.get r2 = 0#32

section Conditions

variable {s t : State}

/-- The condition of a halt is enough for it, and the halt is the step's whole effect. -/
theorem step_of_haltsWith {reason : HaltReason} (hr : s.run = .running) (hh : s.haltsWith reason) :
    step s = .next (s.halt reason) := by
  cases reason with
  | endOfMemory => exact step_endOfMemory hr hh
  | haltWord =>
    obtain ⟨hpc, hw⟩ := hh
    rw [step_of_decode_some hr hpc (decode_eq_parar_iff.2 hw), exec_parar]

/-- The condition of a fault is enough for it, and `raise` is the step's whole effect. -/
theorem step_of_faultsWith {reason : FaultReason} (hr : s.run = .running)
    (hf : s.faultsWith reason) : step s = .next (s.raise reason) := by
  cases reason with
  | divByZero =>
    obtain ⟨r1, r2, hi, h0⟩ := hf
    exact (step_of_current hr hi).trans (execDiv_zero h0)
  | memBounds =>
    obtain ⟨r, addr, hi | hi, ha⟩ := hf
    · exact (step_of_current hr hi).trans (execCargar_outside (Nat.not_lt.2 ha))
    · exact (step_of_current hr hi).trans (execAlmacenar_outside (Nat.not_lt.2 ha))

/-- The condition of a report is enough for it, and nothing else happens but `pc + 1`. -/
theorem step_of_reportsWith {kind : ReportKind} (hr : s.run = .running) (hk : s.reportsWith kind) :
    step s = .next (s.report kind).advance := by
  cases kind with
  | unrecognizedOpcode =>
    obtain ⟨hpc, hi⟩ := hk
    exact step_of_decode_none hr hpc (State.current_inside hpc ▸ hi)
  | modByZero =>
    obtain ⟨r1, r2, hi, h0⟩ := hk
    exact (step_of_current hr hi).trans (execMod_zero h0)

/-! ## Nothing else ends a run or reaches the log -/

/-- A step leaves the engine running, or is a halt or a fault under its condition. -/
theorem step_run_cases (h : step s = .next t) : t.run = .running ∨
    (∃ reason, s.haltsWith reason ∧ t = s.halt reason) ∨
    ∃ reason, s.faultsWith reason ∧ t = s.raise reason := by
  obtain ⟨hr, -⟩ := step_next h
  obtain ⟨hpc, -, ht⟩ | ⟨-, -, rfl⟩ | ⟨i, hi, hcase⟩ := step_cases h
  · exact .inr (.inl ⟨.endOfMemory, hpc, ht⟩)
  · exact .inl hr
  · cases hcase with
    | halts hp ht =>
      obtain ⟨hpc, hd⟩ := State.current_eq_some_iff.1 hi
      exact .inr (.inl ⟨.haltWord, ⟨hpc, decode_eq_parar_iff.1 (hp ▸ hd)⟩, ht⟩)
    | faults reason ht hf =>
      refine .inr (.inr ⟨reason, ?_, ht⟩)
      obtain ⟨rfl, r1, r2, rfl, h0⟩ | ⟨rfl, r, addr, rfl | rfl, ha⟩ := hf
      · exact ⟨r1, r2, hi, h0⟩
      · exact ⟨r, addr, .inl hi, ha⟩
      · exact ⟨r, addr, .inr hi, ha⟩
    | reports _ _ _ _ ht => exact .inl (ht ▸ hr)
    | jumps _ _ _ ht => exact .inl (ht ▸ hr)
    | stores _ _ _ _ ht => exact .inl (ht ▸ hr)
    | computes only _ _ _ _ _ =>
      obtain ⟨-, -, hrun, -⟩ := only.rest
      exact .inl (hrun.trans hr)

/-- A step keeps the log, or is a report under its condition. -/
theorem step_log_cases (h : step s = .next t) : t.log = s.log ∨
    ∃ kind, s.reportsWith kind ∧ t = (s.report kind).advance := by
  obtain ⟨-, -, rfl⟩ | ⟨hpc, hi, ht⟩ | ⟨i, hi, hcase⟩ := step_cases h
  · exact .inl rfl
  · exact .inr ⟨.unrecognizedOpcode, ⟨hpc, hi⟩, ht⟩
  · cases hcase with
    | halts _ ht => exact .inl (ht ▸ rfl)
    | faults _ ht _ => exact .inl (ht ▸ rfl)
    | reports r1 r2 hmod h0 ht => exact .inr ⟨.modByZero, ⟨r1, r2, hmod ▸ hi, h0⟩, ht⟩
    | jumps _ _ _ ht => exact .inl (ht ▸ rfl)
    | stores _ _ _ _ ht => exact .inl (ht ▸ rfl)
    | computes only _ _ _ _ _ =>
      obtain ⟨-, -, -, hlog⟩ := only.rest
      exact .inl hlog

/-! ## The conditions as equivalences -/

/-- A step that ends in `FAULTED` is a `raise` under its condition, and nothing more (R223). -/
theorem eq_raise_of_run_faulted {reason : FaultReason} {pc : Nat} (h : step s = .next t)
    (ht : t.run = .faulted reason pc) : s.faultsWith reason ∧ t = s.raise reason ∧ pc = s.pc := by
  obtain hrun | ⟨_, -, rfl⟩ | ⟨_, hf, rfl⟩ := step_run_cases h
  · simp [hrun] at ht
  · simp at ht
  · obtain ⟨rfl, rfl⟩ := RunState.faulted.inj ht
    exact ⟨hf, rfl, rfl⟩

theorem run_halted_iff {reason : HaltReason} (h : step s = .next t) :
    t.run = .halted reason ↔ s.haltsWith reason := by
  constructor
  · intro ht
    obtain hrun | ⟨_, hh, rfl⟩ | ⟨_, -, rfl⟩ := step_run_cases h
    · simp [hrun] at ht
    · exact RunState.halted.inj ht ▸ hh
    · simp at ht
  · intro hh
    exact step_unique h (step_of_haltsWith (step_next h).1 hh) ▸ rfl

theorem run_faulted_iff {reason : FaultReason} (h : step s = .next t) :
    t.run = .faulted reason s.pc ↔ s.faultsWith reason := by
  constructor
  · intro ht
    exact (eq_raise_of_run_faulted h ht).1
  · intro hf
    exact step_unique h (step_of_faultsWith (step_next h).1 hf) ▸ rfl

/-- A report is one record with the address and word of the instruction, and the run goes on. -/
theorem reported_of_reportsWith {kind : ReportKind} (h : step s = .next t)
    (hk : s.reportsWith kind) :
    t.log = s.log ++ [⟨kind, s.pc, s.mem.readWord s.pc⟩] ∧ t.pc = s.pc + 1 ∧ t.run = .running := by
  obtain ⟨hr, -⟩ := step_next h
  obtain rfl := step_unique h (step_of_reportsWith hr hk)
  exact ⟨rfl, rfl, hr⟩

end Conditions

/-! ## The obligations of the exceptions -/

/-- Settles O21: a step that ends in `FAULTED` is a `raise`, and a faulted state does not step. -/
theorem faultsArePrecise : Obligations.FaultsArePrecise := by
  intro s t reason pc h ht
  obtain ⟨-, rfl, hpc⟩ := eq_raise_of_run_faulted h ht
  exact ⟨rfl, hpc, step_faulted rfl⟩

/-- Settles O22: each condition is met exactly when the step ends or reports by it, and a step that
changes the log is one of the two reports. -/
theorem theRunTimeConditionsAreComplete : Obligations.TheRunTimeConditionsAreComplete := by
  intro s t h
  refine ⟨run_halted_iff h, run_halted_iff h, run_faulted_iff h, run_faulted_iff h, ?_, ?_, ?_, ?_⟩
  · intro reason pc ht
    obtain ⟨-, -, hpc⟩ := eq_raise_of_run_faulted h ht
    exact hpc
  · intro hpc hi
    exact reported_of_reportsWith (kind := .unrecognizedOpcode) h ⟨hpc, hi⟩
  · intro r1 r2 hi h0
    exact reported_of_reportsWith (kind := .modByZero) h ⟨r1, r2, hi, h0⟩
  · intro hne
    obtain hlog | ⟨kind, hk, -⟩ := step_log_cases h
    · exact absurd hlog hne
    · cases kind with
      | unrecognizedOpcode => exact .inl hk
      | modByZero => exact .inr hk

end Machine

end Sys2Proof
end

section
/-! The linker-loader: what a load that succeeds places, and when a load fails
(`70_reset_and_hazards.md` R252, R253, R254). -/

namespace Sys2Proof.Machine

section Load

variable {p : Params} {mem m : Memory} {words : List Word} {base : Nat}

@[simp] theorem load_nil : load p mem [] base = .error .emptyInput := if_pos rfl

/-- Past the check for an empty input, a load is the loop from instruction 0 (R252). -/
theorem load_of_ne_nil (h : words ≠ []) : load p mem words base = loadFrom p base 0 mem words :=
  if_neg h

theorem load_eq_ok_iff :
    load p mem words base = .ok m ↔ words ≠ [] ∧ loadFrom p base 0 mem words = .ok m := by
  by_cases hw : words = []
  · simp [hw]
  · simp [hw, load_of_ne_nil]

/-- A load places the relocation of word `i` at `base + i` and nothing outside its image (R252). -/
theorem load_ok (hwf : mem.wf = true) (h : load p mem words base = .ok m) :
    m.wf = true ∧
    (∀ (i : Nat) (w : Word), words[i]? = some w →
      relocate p.opc base w = some (m.readWord (base + i))) ∧
    ∀ a, (a < base ∨ base + words.length ≤ a) → m.readWord a = mem.readWord a := by
  obtain ⟨hm, hplaced, hkept⟩ := loadFrom_ok hwf (load_eq_ok_iff.1 h).2
  exact ⟨hm, fun i w hi => (hplaced i w hi).1, hkept⟩

end Load

/-- A relocation, told by the kind of the word (R253). -/
theorem relocate_some_fields {opc : Opc} {base : Nat} {w w' : Word}
    (h : relocate opc base w = some w') :
    (memoryReferencing opc w = true →
      fieldOpC w' = fieldOpC w ∧ (fieldLow w').toNat = base + (fieldLow w).toNat) ∧
    (memoryReferencing opc w = false → w' = w) := by
  obtain ⟨href, -, hop, hlow⟩ | ⟨href, hcopy⟩ := relocate_some h
  · exact ⟨fun _ => ⟨hop, hlow⟩, fun hnot => by simp [href] at hnot⟩
  · exact ⟨fun hyes => by simp [href] at hyes, fun _ => hcopy⟩

/-! ## The obligations of the loader -/

/-- Settles O53: the word at `base + i` is the relocation of word `i`, whose fields depend only on
whether that word refers to memory. -/
theorem loadPlacesRelocatedWords : Obligations.LoadPlacesRelocatedWords := by
  intro p mem m words base hwf h
  obtain ⟨hm, hplaced, hkept⟩ := load_ok hwf h
  exact ⟨hm, fun i w hi => relocate_some_fields (hplaced i w hi), hkept⟩

/-- Settles O55: past the empty input a load fails where its loop does, at a word past memory or at a
word that cannot be relocated. -/
theorem loadFailsExactlyOnTheListedErrors : Obligations.LoadFailsExactlyOnTheListedErrors := by
  intro p mem words base
  by_cases hw : words = []
  · subst hw
    exact ⟨fun _ => .inl rfl, fun _ => ⟨.emptyInput, load_nil⟩⟩
  · simp only [load_of_ne_nil hw, loadFrom_error, relocate_none, Nat.add_zero, hw, false_or]

end Sys2Proof.Machine
end

section
/-! What every step keeps: the parameters, a canonical memory that only `ALMACENAR` writes, the log but
for one record, and the invariant; and memory along a run (`10_state.md` R34, `20_memory.md` R50, R57,
R60, `60_exceptions.md` R222). -/

namespace Sys2Proof.Machine

/-! ## The store a cycle makes (R121) -/

theorem State.storeMade_eq_some_iff {s : State} {a : Nat} {v : Word} : s.storeMade = some (a, v) ↔
    ∃ r addr, s.current = some (.almacenar r addr) ∧ a = address addr ∧ a < s.params.memSize ∧
      v = s.x.get r := by
  unfold State.storeMade
  constructor
  · intro h
    split at h
    · next r addr hi =>
      split at h
      · next ha =>
        obtain ⟨rfl, rfl⟩ := Prod.mk.inj (Option.some.inj h)
        exact ⟨r, addr, hi, rfl, ha, rfl⟩
      · cases h
    · cases h
  · rintro ⟨r, addr, hi, rfl, ha, rfl⟩
    simp only [hi, if_pos ha]

/-- An instruction at `pc` that is no `ALMACENAR`, or none at all, makes no store. -/
theorem State.storeMade_eq_none {s : State}
    (h : ∀ r addr, s.current = some (.almacenar r addr) → s.params.memSize ≤ address addr) :
    s.storeMade = none := by
  refine Option.eq_none_iff_forall_ne_some.2 fun ⟨a, v⟩ hs => ?_
  obtain ⟨r, addr, hi, rfl, ha, -⟩ := State.storeMade_eq_some_iff.1 hs
  exact absurd (h r addr hi) (Nat.not_le.2 ha)

/-! ## What a step does to the parameters and the memory -/

section Step

variable {s t : State}

/-- No step changes a parameter (R8). -/
theorem step_params (h : step s = .next t) : t.params = s.params := by
  obtain ⟨-, -, rfl⟩ | ⟨-, -, rfl⟩ | ⟨i, -, hcase⟩ := step_cases h
  · rfl
  · rfl
  · cases hcase with
    | halts _ ht => exact ht ▸ rfl
    | faults _ ht _ => exact ht ▸ rfl
    | reports _ _ _ _ ht => exact ht ▸ rfl
    | jumps _ _ _ ht => exact ht ▸ rfl
    | stores _ _ _ _ ht => exact ht ▸ rfl
    | computes only _ _ _ _ _ => exact only.rest.1

/-- A step keeps the memory, or writes the one word its cycle stores (R57, R121). -/
theorem step_mem_cases (h : step s = .next t) :
    (s.storeMade = none ∧ t.mem = s.mem) ∨
    ∃ a v, s.storeMade = some (a, v) ∧ t.mem = s.mem.writeWord a v := by
  obtain ⟨-, hi, rfl⟩ | ⟨-, hi, rfl⟩ | ⟨i, hi, hcase⟩ := step_cases h
  · exact .inl ⟨State.storeMade_eq_none (by simp [hi]), rfl⟩
  · exact .inl ⟨State.storeMade_eq_none (by simp [hi]), rfl⟩
  · cases hcase with
    | halts hp ht => exact .inl ⟨State.storeMade_eq_none (by simp [hi, hp]), ht ▸ rfl⟩
    | faults _ ht hf =>
      refine .inl ⟨State.storeMade_eq_none fun r addr hst => ?_, ht ▸ rfl⟩
      obtain rfl := Option.some.inj (hi.symm.trans hst)
      obtain ⟨-, _, _, hdiv, -⟩ | ⟨-, _, _, hcar | hst, ha⟩ := hf
      · cases hdiv
      · cases hcar
      · cases hst; exact ha
    | reports _ _ hmod _ ht => exact .inl ⟨State.storeMade_eq_none (by simp [hi, hmod]), ht ▸ rfl⟩
    | jumps _ _ hj ht =>
      refine .inl ⟨State.storeMade_eq_none fun r addr hst => ?_, ht ▸ rfl⟩
      obtain rfl := Option.some.inj (hi.symm.trans hst)
      cases hj
    | stores r addr hst ha ht =>
      exact .inr ⟨_, _, State.storeMade_eq_some_iff.2 ⟨r, addr, hst ▸ hi, rfl, ha, rfl⟩, ht ▸ rfl⟩
    | computes only _ _ hs _ _ =>
      obtain ⟨-, hmem, -, -⟩ := only.rest
      exact .inl ⟨State.storeMade_eq_none (by simp [hi, hs]), hmem⟩

/-- A step keeps the memory canonical. -/
theorem step_memWf (hwf : s.mem.wf = true) (h : step s = .next t) : t.mem.wf = true := by
  obtain ⟨-, hmem⟩ | ⟨a, v, -, hmem⟩ := step_mem_cases h
  · exact hmem ▸ hwf
  · exact hmem ▸ Memory.wf_writeWord a v hwf

/-- A step lists no cell outside memory, since its store is inside (R50, R52). -/
theorem step_memInside (hin : s.mem.inside s.params.memSize = true) (h : step s = .next t) :
    t.mem.inside t.params.memSize = true := by
  rw [step_params h]
  obtain ⟨-, hmem⟩ | ⟨a, v, hst, hmem⟩ := step_mem_cases h
  · exact hmem ▸ hin
  · obtain ⟨_, _, -, -, ha, -⟩ := State.storeMade_eq_some_iff.1 hst
    exact hmem ▸ Memory.inside_writeWord v hin ha

/-! ## The log and the run state -/

/-- The record that a report's condition calls for is genuine (R221, R222). -/
theorem State.reportsWith.genuine {kind : ReportKind} (h : s.reportsWith kind) :
    Report.genuine s.params ⟨kind, s.pc, s.mem.readWord s.pc⟩ := by
  cases kind with
  | unrecognizedOpcode =>
    obtain ⟨hpc, hi⟩ := h
    exact ⟨hpc, State.current_inside hpc ▸ hi⟩
  | modByZero =>
    obtain ⟨r1, r2, hi, -⟩ := h
    obtain ⟨hpc, hd⟩ := State.current_eq_some_iff.1 hi
    exact ⟨hpc, r1, r2, hd⟩

/-- A step adds genuine records only. -/
theorem step_logGenuine (hg : ∀ r ∈ s.log, r.genuine s.params) (h : step s = .next t) :
    ∀ r ∈ t.log, r.genuine t.params := by
  obtain hlog | ⟨kind, hk, rfl⟩ := step_log_cases h
  · rwa [step_params h, hlog]
  · intro r hr
    obtain hold | hnew := List.mem_append.1 hr
    · exact hg r hold
    · exact List.mem_singleton.1 hnew ▸ hk.genuine

/-- A halt or fault under its condition, which changes nothing but the run state, is explained by that
same condition. -/
theorem step_runExplained (h : step s = .next t) : t.runExplained := by
  obtain hrun | ⟨reason, hh, rfl⟩ | ⟨reason, hf, rfl⟩ := step_run_cases h
  · rw [State.runExplained, hrun]; trivial
  · cases reason <;> exact hh
  · cases reason <;> exact ⟨rfl, hf⟩

end Step

/-! ## Memory along a run (R60) -/

/-- The word a cycle stores to word address `a`, if it makes that store. -/
def State.storeTo (s : State) (a : Nat) : Option Word :=
  s.storeMade.bind fun p => if p.1 = a then some p.2 else none

section Run

variable {s t u : State} {n : Nat}

/-- After one step a word is what the cycle stored to it, or what it was. -/
theorem readWord_step (a : Nat) (hwf : s.mem.wf = true) (h : step s = .next t) :
    t.mem.readWord a = (s.storeTo a).getD (s.mem.readWord a) := by
  obtain ⟨hst, hmem⟩ | ⟨b, v, hst, hmem⟩ := step_mem_cases h
  · rw [hmem, State.storeTo, hst]; rfl
  · rw [hmem, State.storeTo, hst, Memory.readWord_writeWord b a v hwf]
    by_cases hb : a = b
    · simp [hb]
    · simp [hb, Ne.symm hb]

theorem stateAfter_succ_eq_some_iff :
    stateAfter (n + 1) s = some t ↔ ∃ u, step s = .next u ∧ stateAfter n u = some t := by
  rw [stateAfter]
  cases step s <;> simp

/-- The latest store of a run is that of the steps after the first, or that of the first step. -/
theorem latestStore_succ (a : Nat) (h : step s = .next u) :
    latestStore a (n + 1) s = (latestStore a n u).or (s.storeTo a) := by
  simp only [latestStore, h, State.storeTo]
  cases latestStore a n u with
  | some v => simp
  | none => cases s.storeMade <;> simp

end Run

/-- Settles O24, by induction on the number of steps: the first step's store is what the word held
before the rest of the run. -/
theorem memoryIsTheLatestStore : Obligations.MemoryIsTheLatestStore := by
  intro n s t a hwf h
  induction n generalizing s with
  | zero =>
    obtain rfl := Option.some.inj h
    rfl
  | succ n ih =>
    obtain ⟨u, hstep, hrest⟩ := stateAfter_succ_eq_some_iff.1 h
    rw [ih u (step_memWf hwf hstep) hrest, readWord_step a hwf hstep, latestStore_succ a hstep,
      Option.getD_or]

/-- Settles O4: each field of the invariant is kept on its own. -/
theorem everyStepKeepsTheInvariant : Obligations.EveryStepKeepsTheInvariant := by
  intro s t hinv h
  exact ⟨step_memWf hinv.memWf h, step_memInside hinv.memInside h,
    step_logGenuine hinv.logGenuine h, step_runExplained h⟩

/-- Settles O5: no case of a step touches the parameters. -/
theorem noStepChangesTheParameters : Obligations.NoStepChangesTheParameters :=
  fun _ _ => step_params

/-- Settles O19: where the word changed there was a store, and a store reaches no other word. -/
theorem onlyAlmacenarWritesMemory : Obligations.OnlyAlmacenarWritesMemory := by
  intro s t a hwf h hne
  obtain ⟨-, hmem⟩ | ⟨b, v, hst, hmem⟩ := step_mem_cases h
  · exact absurd (hmem ▸ rfl) hne
  · rw [hmem, Memory.readWord_writeWord b a v hwf] at hne ⊢
    have hab : a = b := by_contra fun hab => hne (if_neg hab)
    subst hab
    obtain ⟨r, addr, hi, haddr, hlt, hv⟩ := State.storeMade_eq_some_iff.1 hst
    exact ⟨r, addr, hi, haddr, hlt, (if_pos rfl).trans hv⟩

/-- Settles O20: a step that does not keep the log is a report, which adds one record. -/
theorem theLogOnlyGrows : Obligations.TheLogOnlyGrows := by
  intro s t h
  obtain hlog | ⟨kind, -, rfl⟩ := step_log_cases h
  · exact .inl hlog
  · exact .inr ⟨kind, rfl⟩

/-- Settles O3: memory and log are empty and the engine is running. -/
theorem resetSatisfiesTheInvariant : Obligations.ResetSatisfiesTheInvariant :=
  ⟨Memory.wf_nil, rfl, fun _ hr => (List.not_mem_nil hr).elim, trivial⟩

end Sys2Proof.Machine
end

section
/-! The encoding and its inverse: the decoder's six outcomes, decoding after encoding and encoding after
decoding, and relocation as a change of the address alone (`30_encoding.md` R76, R80, R83, R89;
`70_reset_and_hazards.md` R253). -/

namespace Sys2Proof

/-- The six outcomes of the classifier, each with what it has found (R83). -/
inductive ClassifyCase (opc : Opc) (w : Word) : Decoded → Prop
  | halt (hw : w = 0#32) : ClassifyCase opc w .halt
  | a (op : OpA) (hw : w ≠ 0#32) (h : opc.tabAB.lookup (fieldOpAB w) = some (.a op)) :
      ClassifyCase opc w (.A op (fieldR w) (fieldLow w))
  | b (op : OpB) (hw : w ≠ 0#32) (h : opc.tabAB.lookup (fieldOpAB w) = some (.b op)) :
      ClassifyCase opc w (.B op (fieldR w) (fieldLow w))
  | c (op : OpC) (hw : w ≠ 0#32) (hAB : opc.tabAB.lookup (fieldOpAB w) = none)
      (h : opc.tabC.lookup (fieldOpC w) = some op) : ClassifyCase opc w (.C op (fieldLow w))
  | d (op : OpD) (hw : w ≠ 0#32) (hAB : opc.tabAB.lookup (fieldOpAB w) = none)
      (hC : opc.tabC.lookup (fieldOpC w) = none) (h : opc.tabD.lookup (fieldOpD w) = some op) :
      ClassifyCase opc w (.D op (fieldR1 w) (fieldR2 w))
  | unrecognized (hw : w ≠ 0#32) (hAB : opc.tabAB.lookup (fieldOpAB w) = none)
      (hC : opc.tabC.lookup (fieldOpC w) = none) (hD : opc.tabD.lookup (fieldOpD w) = none) :
      ClassifyCase opc w .unrecognized

theorem classify_cases (opc : Opc) (w : Word) : ClassifyCase opc w (classify opc w) := by
  by_cases hw : w = 0#32
  · rw [hw, classify_zero]; exact .halt rfl
  · cases hAB : opc.tabAB.lookup (fieldOpAB w) with
    | some op =>
      cases op with
      | a op => rw [classify_of_lookup_a hw hAB]; exact .a op hw hAB
      | b op => rw [classify_of_lookup_b hw hAB]; exact .b op hw hAB
    | none =>
      cases hC : opc.tabC.lookup (fieldOpC w) with
      | some op => rw [classify_of_lookup_c hw hAB hC]; exact .c op hw hAB hC
      | none =>
        cases hD : opc.tabD.lookup (fieldOpD w) with
        | some op => rw [classify_of_lookup_d hw hAB hC hD]; exact .d op hw hAB hC hD
        | none => rw [classify_of_lookup_none hw hAB hC hD]; exact .unrecognized hw hAB hC hD

/-! ## Decoding and encoding under a legal assignment (R76, R80, R83) -/

section Legal

variable {opc : Opc}

/-- The word of a decoder result decodes to it, unless its format and key make it the halt word, which
W4 leaves possible (R81). -/
theorem classify_of_encodeDecoded (hl : opc.legal = true) {d : Decoded} {w : Word}
    (h : encodeDecoded opc d = some w) (hw : w ≠ 0#32 ∨ d = .halt) : classify opc w = d := by
  cases d with
  | halt =>
    obtain rfl := Option.some.inj h
    exact classify_zero opc
  | unrecognized => cases h
  | A op r addr =>
    obtain ⟨k, hk, rfl⟩ := Option.map_eq_some_iff.1 h
    simpa using classify_of_row_a hl (hw.resolve_right nofun) (by simpa using mem_of_keyOf hk)
  | B op r k =>
    obtain ⟨key, hk, rfl⟩ := Option.map_eq_some_iff.1 h
    simpa using classify_of_row_b hl (hw.resolve_right nofun) (by simpa using mem_of_keyOf hk)
  | C op target =>
    obtain ⟨k, hk, rfl⟩ := Option.map_eq_some_iff.1 h
    simpa using classify_of_row_c hl (hw.resolve_right nofun) (by simpa using mem_of_keyOf hk)
  | D op r1 r2 =>
    obtain ⟨k, hk, rfl⟩ := Option.map_eq_some_iff.1 h
    simpa using classify_of_row_d hl (hw.resolve_right nofun) (by simpa using mem_of_keyOf hk)

/-- What a word is classified as encodes to that word: its opcode field is the operation's one key, and
a word is its fields. -/
theorem encodeDecoded_of_classifyCase (hl : opc.legal = true) {w : Word} {d : Decoded}
    (hcase : ClassifyCase opc w d) (hd : d ≠ .unrecognized) : encodeDecoded opc d = some w := by
  obtain ⟨⟨hAB, hC, hD⟩, -⟩ := Opc.legal_iff.1 hl
  cases hcase with
  | halt hw => rw [hw]; rfl
  | a op _ hop =>
    rw [encodeDecoded, (lookup_iff_keyOf hAB (OpAB.mem_all _)).1 hop, Option.map_some,
      packAB_fields]
  | b op _ hop =>
    rw [encodeDecoded, (lookup_iff_keyOf hAB (OpAB.mem_all _)).1 hop, Option.map_some,
      packAB_fields]
  | c op _ _ hop =>
    rw [encodeDecoded, (lookup_iff_keyOf hC (OpC.mem_all _)).1 hop, Option.map_some,
      packC_fields]
  | d op _ _ _ hop =>
    rw [encodeDecoded, (lookup_iff_keyOf hD (OpD.mem_all _)).1 hop, Option.map_some,
      packD_fields]
  | unrecognized _ _ _ _ => exact absurd rfl hd

end Legal

/-- What it says that an instruction is well formed: it has a word, which is the halt word only for
`PARAR` (R75, R81). -/
theorem Instr.wellFormed_iff {opc : Opc} {i : Instr} : i.wellFormed opc = true ↔
    ∃ w, encode opc i = some w ∧ (w ≠ 0#32 ∨ i = .parar) := by
  unfold Instr.wellFormed
  cases encode opc i <;> simp

/-- Settles O7: the word of the instruction's tuple form decodes to that tuple form. -/
theorem decodeOfEncodeIsTheInstruction : Obligations.DecodeOfEncodeIsTheInstruction := by
  intro opc i hl hwf
  obtain ⟨w, henc, hw⟩ := Instr.wellFormed_iff.1 hwf
  have hhalt : w ≠ 0#32 ∨ i.decoded = .halt := hw.imp id (congrArg Instr.decoded)
  have hd := classify_of_encodeDecoded hl henc hhalt
  exact ⟨w, henc, by rw [decode, hd, Instr.decoded_instr?]⟩

/-- Settles O8: the instruction's tuple form is what the word was classified as. -/
theorem encodeOfDecodeIsTheWord : Obligations.EncodeOfDecodeIsTheWord := by
  intro opc w i hl hdec
  have hd : i.decoded = classify opc w := Decoded.decoded_of_instr? hdec
  have hrec : classify opc w ≠ .unrecognized := fun hu => by
    rw [decode_eq_none_iff.2 hu] at hdec
    cases hdec
  rw [encode, hd, encodeDecoded_of_classifyCase hl (classify_cases opc w) hrec]

/-- Settles O6: each word is classified by computation. -/
theorem specWordsDecode : Obligations.SpecWordsDecode := by
  unfold Obligations.SpecWordsDecode
  decide

namespace Machine

/-! ## Relocation (R253) -/

section Relocate

variable {opc : Opc} {base : Nat} {w w' : Word}

theorem fieldOpAB_eq_of_fieldOpC_eq (h : fieldOpC w' = fieldOpC w) : fieldOpAB w' = fieldOpAB w := by
  rw [fieldOpAB_of_fieldOpC, h, ← fieldOpAB_of_fieldOpC]

/-- The bits above the low field hold the register of Formats A and B. -/
theorem fieldR_eq_of_fieldOpC_eq (h : fieldOpC w' = fieldOpC w) : fieldR w' = fieldR w := by
  have hslice : ∀ v : Word, v.extractLsb' 11 3 = (fieldOpC v).extractLsb' 0 3 := fun v => by
    apply BitVec.eq_of_toNat_eq
    rw [fieldOpC, toNat_slice, toNat_slice, toNat_slice]
    omega
  rw [fieldR, fieldR, hslice, h, hslice]

/-- Moving the low field up by `base` makes no word the halt word: it would have been so before. -/
theorem relocated_ne_zero (hop : fieldOpC w' = fieldOpC w)
    (hlow : (fieldLow w').toNat = base + (fieldLow w).toNat) (hw : w ≠ 0#32) : w' ≠ 0#32 := by
  rintro rfl
  have hzero : (fieldLow w).toNat = 0 := by
    have h0 : (fieldLow 0#32).toNat = 0 := by decide
    omega
  have hlow0 : fieldLow w = fieldLow 0#32 := BitVec.eq_of_toNat_eq (hzero.trans (by decide))
  exact hw (by rw [← packC_fields w, ← hop, hlow0, packC_fields])

end Relocate

/-- Settles O56: a word of Format A or C keeps the bits above its low field, which hold its opcode and
register, and does not become the halt word; any other word is copied. -/
theorem relocationKeepsTheOperation : Obligations.RelocationKeepsTheOperation := by
  intro opc base w w' h
  obtain ⟨hmoved, hcopied⟩ := relocate_some_fields h
  have hcase := classify_cases opc w
  refine ⟨fun op r addr hA => ?_, fun op target hC => ?_, hcopied⟩
  · obtain ⟨hop, hlow⟩ := hmoved (by rw [memoryReferencing, hA])
    rw [hA] at hcase
    cases hcase with
    | a _ hw hrow =>
      refine ⟨fieldLow w', ?_, hlow⟩
      rw [← fieldR_eq_of_fieldOpC_eq hop]
      exact classify_of_lookup_a (relocated_ne_zero hop hlow hw)
        (fieldOpAB_eq_of_fieldOpC_eq hop ▸ hrow)
  · obtain ⟨hop, hlow⟩ := hmoved (by rw [memoryReferencing, hC])
    rw [hC] at hcase
    cases hcase with
    | c _ hw hAB hrow =>
      exact ⟨fieldLow w', classify_of_lookup_c (relocated_ne_zero hop hlow hw)
        (fieldOpAB_eq_of_fieldOpC_eq hop ▸ hAB) (hop ▸ hrow), hlow⟩

end Machine

end Sys2Proof
end

section
/-! The assembler: a written line read back, and a batch as the list of its lines
(`30_encoding.md` R87 to R90, R93). -/

namespace Sys2Proof

/-- What the check of a token says (R87). -/
theorem Token.wellFormed_iff {t : Token} :
    t.wellFormed = true ↔ (∀ c ∈ t, c.isWhitespace = false) ∧ t ≠ [] := by
  simp [Token.wellFormed, and_comm]

/-- What the check of the jump spellings says. -/
theorem JmpMnemonics.wellFormed_iff {m : JmpMnemonics} {others : List Token} :
    m.wellFormed others = true ↔
      m.toList.Nodup ∧ ∀ t ∈ m.toList, t.wellFormed = true ∧ t ∉ others := by
  simp [JmpMnemonics.wellFormed]

namespace Machine

/-! ## Tokens put together and read back (R87) -/

/-- Tokens written one space apart are the tokens of the line. -/
theorem tokens_spaced {t : Token} {ts : List Token} (ht : t.wellFormed = true)
    (hts : ∀ t' ∈ ts, t'.wellFormed = true) : tokens (t ++ ts.flatMap (' ' :: ·)) = t :: ts := by
  obtain ⟨hws, hne⟩ := Token.wellFormed_iff.1 ht
  induction ts generalizing t with
  | nil => rw [List.flatMap_nil, List.append_nil, tokens_word hws hne]
  | cons u us ih =>
    have hu : u.wellFormed = true := hts u List.mem_cons_self
    obtain ⟨huws, hune⟩ := Token.wellFormed_iff.1 hu
    rw [List.flatMap_cons, List.cons_append, tokens_word_space hws hne,
      ih hu (fun t' h => hts t' (List.mem_cons_of_mem u h)) huws hune]

theorem Reg.name_wellFormed (r : Reg) : (Reg.name r).wellFormed = true :=
  Token.wellFormed_iff.2 (Reg.name_isToken r)

/-- A field's literal, four digits at most, is a token of digits with the field's value. -/
theorem decimal_spec (f : Field11) : (decimal f).wellFormed = true ∧
    (∀ c ∈ decimal f, c.isDigit = true) ∧ digitsValue (decimal f) = f.toNat := by
  have hf := f.isLt
  obtain ⟨hval, hchars, hne⟩ := decimalFrom_spec 3 f.toNat (by omega)
  exact ⟨Token.wellFormed_iff.2 ⟨fun c hc => (hchars c hc).2, hne⟩, fun c hc => (hchars c hc).1,
    hval⟩

theorem parseField_decimal (f : Field11) : parseField (decimal f) = .ok f := by
  obtain ⟨hwf, hdigits, hval⟩ := decimal_spec f
  have hne := (Token.wellFormed_iff.1 hwf).2
  rw [parseField, if_pos ⟨hne, List.all_eq_true.2 hdigits, hval ▸ f.isLt⟩, hval, BitVec.ofNat_toNat,
    BitVec.setWidth_eq]

/-- The operand tokens of a decoder result, as a line writes them (R88). -/
def operandTokens : Decoded → List Token
  | .halt => []
  | .unrecognized => []
  | .A _ r f => [Reg.name r, decimal f]
  | .B _ r f => [Reg.name r, decimal f]
  | .C _ f => [decimal f]
  | .D _ r1 r2 => [Reg.name r1, Reg.name r2]

theorem operandTokens_wellFormed (d : Decoded) : ∀ t ∈ operandTokens d, t.wellFormed = true := by
  cases d <;> simp [operandTokens, Reg.name_wellFormed, (decimal_spec _).1]

/-- A line is its mnemonic and its operands, one space apart. -/
theorem Instr.line_eq (m : JmpMnemonics) (i : Instr) : Instr.line m i =
    spelling (mnemonicTable m) (Mnemonic.ofDecoded i.decoded) ++
      (operandTokens i.decoded).flatMap (' ' :: ·) := by
  rw [Instr.line]
  cases i.decoded <;> simp [operandTokens]

/-- Operands are read back to the instruction they were written for (R88). -/
theorem parseOperands_operandTokens {d : Decoded} {i : Instr} (h : d.instr? = some i) :
    parseOperands (Mnemonic.ofDecoded d) (operandTokens d) = .ok i := by
  cases d with
  | unrecognized => cases h
  | halt =>
    obtain rfl := Option.some.inj h
    rfl
  | A op r f | B op r f | C op f | D op r1 r2 =>
    obtain rfl := Option.some.inj h
    simp [Mnemonic.ofDecoded, operandTokens, parseOperands, parseReg_name, parseField_decimal,
      Except.bind, Except.map]

/-! ## The operation table (R87, R88) -/

/-- In a table with no repeated spelling, looking up a listed one gives its operation. -/
theorem lookup_mnemonic {table : List (Token × Mnemonic)} {t : Token} {op : Mnemonic}
    (hn : (table.map (·.1)).Nodup) (h : (t, op) ∈ table) : table.lookup t = some op := by
  obtain ⟨before, after, rfl⟩ := List.append_of_mem h
  rw [List.map_append, List.map_cons, List.nodup_append] at hn
  obtain ⟨-, -, hdisj⟩ := hn
  refine List.lookup_eq_some_iff.2 ⟨before, after, rfl, fun p hp => ?_⟩
  exact bne_iff_ne.2 (hdisj p.1 (List.mem_map_of_mem hp) t List.mem_cons_self).symm

/-- The spelling of a listed operation is a row of the table. -/
theorem spelling_mem {table : List (Token × Mnemonic)} {op : Mnemonic}
    (h : op ∈ table.map (·.2)) : (spelling table op, op) ∈ table := by
  obtain ⟨e, he, hop⟩ := List.mem_map.1 h
  obtain ⟨row, hrow⟩ := Option.isSome_iff_exists.1
    ((List.find?_isSome (p := fun e => decide (e.2 = op))).2 ⟨e, he, decide_eq_true hop⟩)
  have hrowOp : row.2 = op := by simpa using List.find?_some hrow
  rw [spelling, hrow, ← hrowOp]
  exact List.mem_of_find?_eq_some hrow

/-- Every operation is listed, whatever the jumps' spellings. -/
theorem mem_mnemonicTable_ops (m : JmpMnemonics) (op : Mnemonic) :
    op ∈ (mnemonicTable m).map (·.2) := by
  have hops : (mnemonicTable m).map (·.2) = (mnemonicTable JmpMnemonics.reference).map (·.2) := rfl
  rw [hops]
  cases op with
  | halt => decide
  | a op => cases op <;> decide
  | b op => cases op <;> decide
  | c op => cases op <;> decide
  | d op => cases op <;> decide

theorem fixedMnemonics_wellFormed : (fixedMnemonics.map (·.1)).Nodup ∧
    ∀ t ∈ fixedMnemonics.map (·.1), Token.wellFormed t = true := by decide

section Spellings

variable {m : JmpMnemonics} (hm : m.wellFormed (fixedMnemonics.map (·.1)) = true)
include hm

/-- Under legal spellings the combined table repeats none and lists only tokens. -/
theorem mnemonicTable_wellFormed : ((mnemonicTable m).map (·.1)).Nodup ∧
    ∀ t ∈ (mnemonicTable m).map (·.1), Token.wellFormed t = true := by
  have hkeys : (mnemonicTable m).map (·.1) = fixedMnemonics.map (·.1) ++ m.toList := rfl
  obtain ⟨hnodup, hjumps⟩ := JmpMnemonics.wellFormed_iff.1 hm
  obtain ⟨hfixed, hfixedTokens⟩ := fixedMnemonics_wellFormed
  rw [hkeys]
  refine ⟨List.nodup_append.2 ⟨hfixed, hnodup, ?_⟩, fun t ht => ?_⟩
  · rintro t ht _ hjump rfl
    exact (hjumps t hjump).2 ht
  · obtain ht | ht := List.mem_append.1 ht
    · exact hfixedTokens t ht
    · exact (hjumps t ht).1

/-- Reading the line that writes an instruction gives the instruction (R88). -/
theorem parseLine_line (i : Instr) : parseLine m (Instr.line m i) = .ok i := by
  obtain ⟨hnodup, htokens⟩ := mnemonicTable_wellFormed hm
  have hrow := spelling_mem (mem_mnemonicTable_ops m (Mnemonic.ofDecoded i.decoded))
  have hspell := htokens _ (List.mem_map_of_mem hrow)
  rw [Instr.line_eq, parseLine, tokens_spaced hspell (operandTokens_wellFormed i.decoded)]
  simp only [lookup_mnemonic hnodup hrow]
  exact parseOperands_operandTokens (Instr.decoded_instr? i)

theorem assembleLine_line {opc : Opc} {i : Instr} {w : Word} (h : encode opc i = some w) :
    assembleLine m opc (Instr.line m i) = .ok w := by
  simp only [assembleLine, parseLine_line hm, Except.bind, h]

end Spellings

/-! ## A batch (R89, R90) -/

section Batch

variable {m : JmpMnemonics} {opc : Opc} {k : Nat} {line : List Char} {rest lines : List (List Char)}

theorem assembleFrom_cons_ok {w : Word} (h : assembleLine m opc line = .ok w) :
    assembleFrom m opc k (line :: rest) =
      (w :: (assembleFrom m opc (k + 1) rest).1, (assembleFrom m opc (k + 1) rest).2) := by
  simp only [assembleFrom, h]

theorem assembleFrom_cons_error {e : AsmError} (h : assembleLine m opc line = .error e) :
    assembleFrom m opc k (line :: rest) =
      ((assembleFrom m opc (k + 1) rest).1, (k, e) :: (assembleFrom m opc (k + 1) rest).2) := by
  simp only [assembleFrom, h]

/-- A batch leaves no errors exactly when every line gives a word, and then gives those words. -/
theorem assembleFrom_eq_ok_iff {words : List Word} : assembleFrom m opc k lines = (words, []) ↔
    lines.map (assembleLine m opc) = words.map .ok := by
  induction lines generalizing k words with
  | nil => cases words <;> simp [assembleFrom]
  | cons line rest ih =>
    cases h : assembleLine m opc line with
    | ok w =>
      rw [assembleFrom_cons_ok h, List.map_cons, h]
      cases words with
      | nil => simp
      | cons v vs => simp [← ih (k := k + 1), Prod.ext_iff, and_assoc]
    | error e =>
      rw [assembleFrom_cons_error h, List.map_cons, h]
      cases words <;> simp

/-- The errors of a batch are those of the lines that fail, each with its number. -/
theorem mem_assembleFrom_errors {i : Nat} {e : AsmError} :
    (i, e) ∈ (assembleFrom m opc k lines).2 ↔
      ∃ line, (line, i) ∈ lines.zipIdx k ∧ assembleLine m opc line = .error e := by
  induction lines generalizing k with
  | nil => simp [assembleFrom]
  | cons line rest ih =>
    cases h : assembleLine m opc line with
    | ok w =>
      rw [assembleFrom_cons_ok h, ih]
      simp [List.zipIdx_cons, or_and_right, exists_or, h]
    | error e' =>
      rw [assembleFrom_cons_error h, List.mem_cons, ih]
      simp [List.zipIdx_cons, or_and_right, exists_or, h, and_assoc, eq_comm]

/-- The words of a batch without errors (R89). -/
theorem assemble_eq_ok_iff {words : List Word} :
    assemble m opc lines = .ok words ↔ lines.map (assembleLine m opc) = words.map .ok := by
  rw [← assembleFrom_eq_ok_iff (k := 0), assemble]
  cases assembleFrom m opc 0 lines with
  | mk ws es => cases es <;> simp

/-- A batch with an error gives all its errors and no words (R90). -/
theorem assemble_eq_error_iff {errors : List (Nat × AsmError)} :
    assemble m opc lines = .error errors ↔
      errors ≠ [] ∧ (assembleFrom m opc 0 lines).2 = errors := by
  rw [assemble]
  cases assembleFrom m opc 0 lines with
  | mk words errs =>
    cases errs with
    | nil => simp [eq_comm]
    | cons err errs =>
      constructor
      · intro h
        obtain rfl := Except.error.inj h
        exact ⟨List.cons_ne_nil err errs, rfl⟩
      · rintro ⟨-, rfl⟩
        rfl

end Batch

/-! ## The obligations of the assembler -/

/-- Settles O57: the written line is read back to the instruction, whose word decodes to it. -/
theorem assembledLinesDecodeBack : Obligations.AssembledLinesDecodeBack := by
  intro m opc i hm hl hwf
  obtain ⟨w, henc, hdec⟩ := decodeOfEncodeIsTheInstruction opc i hl hwf
  exact ⟨w, assembleLine_line hm henc, hdec⟩

/-- Settles O58: the batch's words and errors, told line by line. -/
theorem assemblyIsLineByLineAndAllOrNothing : Obligations.AssemblyIsLineByLineAndAllOrNothing := by
  intro m opc lines
  refine ⟨fun words => assemble_eq_ok_iff, fun errors h => ?_⟩
  obtain ⟨hne, rfl⟩ := assemble_eq_error_iff.1 h
  refine ⟨hne, fun i e => ?_⟩
  simp only [mem_assembleFrom_errors, List.mk_mem_zipIdx_iff_getElem?]

end Machine

end Sys2Proof
end

section
/-! The engine from outside: the fetch of a stored or placed word, a jump past memory, runs under a fuel
bound, the free draws, reset and the dump (`20_memory.md` R62, R64; `40_execution_engine.md` R101, R108
to R110; `44_register_register.md` R173). -/

namespace Sys2Proof.Machine

open Sys2Proof.Claims

/-! ## What the next cycle fetches -/

/-- Settles O11: the fetch of a `pc` inside memory is the word there. -/
theorem stepRunsTheDecodedInstruction : Obligations.StepRunsTheDecodedInstruction :=
  fun _ _ => step_of_decode_some

/-- Settles O23: the store's word is at the new `pc`, which is inside memory, and the next cycle reads
the memory as the store left it. -/
theorem aStoreIsSeenByTheNextFetch : Obligations.AStoreIsSeenByTheNextFetch := by
  intro s r addr hwf hr hi haddr hlt
  rw [haddr] at hlt
  have hstep : step s =
      .next { s with mem := s.mem.writeWord (s.pc + 1) (s.x.get r), pc := s.pc + 1 } := by
    rw [step_of_current hr hi, exec, execAlmacenar_inside (haddr ▸ hlt), haddr]
  have hword : (s.mem.writeWord (s.pc + 1) (s.x.get r)).readWord (s.pc + 1) = s.x.get r :=
    Memory.readWord_writeWord_same _ _ hwf
  refine ⟨_, hstep, State.fetch_eq_some.2 ⟨hlt, hword⟩, fun h0 => ?_, fun i hd => ?_⟩
  · exact step_of_haltsWith (reason := .haltWord) hr ⟨hlt, hword.trans h0⟩
  · exact step_of_decode_some hr hlt (hword.symm ▸ hd)

/-- Settles O25: `withFetchWord` is one word write at the address the next fetch reads. -/
theorem aPlacedWordIsTheNextToRun : Obligations.APlacedWordIsTheNextToRun := by
  intro s w hwf
  rw [withFetchWord_word]
  have hword : (placeAtFetch s w).mem.readWord (placeAtFetch s w).pc = w :=
    Memory.readWord_writeWord_same _ _ hwf
  have hin : 1 ≤ s.params.memSize → (placeAtFetch s w).pc < s.params.memSize := fun hm => by
    rw [placeAtFetch_pc]
    split <;> omega
  refine ⟨rfl, fun h => if_pos h, fun h => if_neg (Nat.not_lt.2 h), fun hm => ⟨?_, fun i hd => ?_⟩,
    fun a ha => ?_, rfl, rfl, rfl, rfl, rfl⟩
  · exact State.fetch_eq_some.2 ⟨hin hm, hword⟩
  · exact step_of_decode_some rfl (hin hm) (hword.symm ▸ hd)
  · rw [placeAtFetch_mem, Memory.readWord_writeWord _ _ _ hwf, if_neg ha]

/-- Settles O39: a taken jump only sets `pc`, and the next cycle finds it past the end of memory. -/
theorem aJumpPastMemoryHaltsTheNextCycle : Obligations.AJumpPastMemoryHaltsTheNextCycle := by
  intro s i target hr hi hjump hpast
  have hstep : step s = .next { s with pc := target.toNat } :=
    (step_of_current hr hi).trans (exec_of_jumpOf hjump)
  exact ⟨_, hstep, rfl, step_endOfMemory (s := { s with pc := target.toNat }) hr hpast⟩

/-! ## Runs under a fuel bound (R108, R109) -/

section Fuel

variable {s t : State} {n : Nat}

/-- A running engine steps to a next state. -/
theorem step_next_of_running (hr : s.run = .running) : ∃ t, step s = .next t :=
  (exactlyTheRunningStatesStep s).1.2 hr

theorem runFuel_succ_of_next (h : step s = .next t) : runFuel (n + 1) s = runFuel n t := by
  rw [runFuel, h]

/-- A run that has ended is reported as it is, with any fuel (R232). -/
theorem runFuel_of_not_running (hr : s.run ≠ .running) (n : Nat) : runFuel n s = .ended s := by
  cases n with
  | zero => rw [runFuel, if_neg hr]
  | succ n =>
    cases h : s.run with
    | running => exact absurd h hr
    | halted reason => rw [runFuel, step_halted h]
    | faulted reason pc => rw [runFuel, step_faulted h]

theorem runFuel_zero_of_running (hr : s.run = .running) : runFuel 0 s = .outOfFuel s := if_pos hr

/-- Running out of fuel is reported of a state that is still running after all `n` steps. -/
theorem runFuel_outOfFuel (h : runFuel n s = .outOfFuel t) :
    t.run = .running ∧ stateAfter n s = some t := by
  induction n generalizing s with
  | zero =>
    by_cases hr : s.run = .running
    · rw [runFuel_zero_of_running hr] at h
      obtain rfl := RunResult.outOfFuel.inj h
      exact ⟨hr, rfl⟩
    · rw [runFuel_of_not_running hr] at h
      cases h
  | succ n ih =>
    by_cases hr : s.run = .running
    · obtain ⟨u, hu⟩ := step_next_of_running hr
      rw [runFuel_succ_of_next hu] at h
      obtain ⟨ht, hafter⟩ := ih h
      exact ⟨ht, stateAfter_succ_eq_some_iff.2 ⟨u, hu, hafter⟩⟩
    · rw [runFuel_of_not_running hr] at h
      cases h

theorem runFuel_ended_of_not_running (hr : s.run ≠ .running) (h : runFuel n s = .ended t) :
    t.run ≠ .running ∧ ∀ k, runFuel k s = .ended t := by
  rw [runFuel_of_not_running hr] at h
  obtain rfl := RunResult.ended.inj h
  exact ⟨hr, runFuel_of_not_running hr⟩

/-- The end of a run is reported of a state that does not run, whatever fuel is left. -/
theorem runFuel_ended (h : runFuel n s = .ended t) :
    t.run ≠ .running ∧ ∀ k, runFuel (n + k) s = .ended t := by
  induction n generalizing s with
  | zero =>
    by_cases hr : s.run = .running
    · rw [runFuel_zero_of_running hr] at h
      cases h
    · exact (runFuel_ended_of_not_running hr h).imp_right fun hall k => hall _
  | succ n ih =>
    by_cases hr : s.run = .running
    · obtain ⟨u, hu⟩ := step_next_of_running hr
      rw [runFuel_succ_of_next hu] at h
      obtain ⟨ht, hmore⟩ := ih h
      exact ⟨ht, fun k => by rw [Nat.succ_add, runFuel_succ_of_next hu, hmore]⟩
    · exact (runFuel_ended_of_not_running hr h).imp_right fun hall k => hall _

end Fuel

/-- Settles O26: fuel runs out only on a running state, and a run ends only on one that does not run,
which more fuel leaves as it is. -/
theorem runningOutOfFuelIsNoHalt : Obligations.RunningOutOfFuelIsNoHalt :=
  fun _ _ _ => ⟨runFuel_outOfFuel, runFuel_ended⟩

/-! ## The free draws (R108, R173) -/

/-- `o'` is the outcome `o` but for the count of draws and, where the instruction is a `DIV` or `MOD`, the
flags. -/
def SameButDraws (i : Instr) (o o' : Host.Outcome State Fault Refusal) : Prop :=
  ∃ t f d, o = .next t ∧ o' = .next { t with flags := f, draws := d } ∧
    ((∀ r1 r2, i ≠ .div r1 r2 ∧ i ≠ .mod r1 r2) → f = t.flags)

theorem sameButDraws_of_all_else_kept {i : Instr} {t : State} {d : Nat} :
    SameButDraws i (.next t) (.next { t with draws := d }) :=
  ⟨t, t.flags, d, rfl, rfl, fun _ => rfl⟩

theorem exec_sameButDraws (i : Instr) (s : State) (d : Nat) :
    SameButDraws i (exec i s) (exec i { s with draws := d }) := by
  cases i with
  | cargar r addr =>
    by_cases ha : address addr < s.params.memSize
    · rw [exec, exec, execCargar_inside ha, execCargar_inside (s := { s with draws := d }) ha]
      exact sameButDraws_of_all_else_kept
    · rw [exec, exec, execCargar_outside ha, execCargar_outside (s := { s with draws := d }) ha]
      exact sameButDraws_of_all_else_kept
  | almacenar r addr =>
    by_cases ha : address addr < s.params.memSize
    · rw [exec, exec, execAlmacenar_inside ha, execAlmacenar_inside (s := { s with draws := d }) ha]
      exact sameButDraws_of_all_else_kept
    · rw [exec, exec, execAlmacenar_outside ha,
        execAlmacenar_outside (s := { s with draws := d }) ha]
      exact sameButDraws_of_all_else_kept
  | div r1 r2 =>
    by_cases hb : s.x.get r2 = 0#32
    · rw [exec, exec, execDiv_zero hb, execDiv_zero (s := { s with draws := d }) hb]
      exact sameButDraws_of_all_else_kept
    · rw [exec, exec, execDiv_nonzero hb, execDiv_nonzero (s := { s with draws := d }) hb]
      exact ⟨_, _, _, rfl, rfl, fun hne => absurd rfl (hne r1 r2).1⟩
  | mod r1 r2 =>
    by_cases hb : s.x.get r2 = 0#32
    · rw [exec, exec, execMod_zero hb, execMod_zero (s := { s with draws := d }) hb]
      exact sameButDraws_of_all_else_kept
    · rw [exec, exec, execMod_nonzero hb, execMod_nonzero (s := { s with draws := d }) hb]
      exact ⟨_, _, _, rfl, rfl, fun hne => absurd rfl (hne r1 r2).2⟩
  | _ =>
    -- no other instruction reads the count of draws
    exact sameButDraws_of_all_else_kept

/-- Settles O28: a step is a halt, a report or an instruction, and only the flags that `DIV` and `MOD`
draw depend on the count. -/
theorem drawsReachOnlyTheFlagsOfDivAndMod : Obligations.DrawsReachOnlyTheFlagsOfDivAndMod := by
  intro s t d h
  have hr : s.run = .running := (step_next h).1
  obtain ⟨hpc, hi, rfl⟩ | ⟨hpc, hi, rfl⟩ | ⟨i, hi, -⟩ := step_cases h
  · exact ⟨_, step_endOfMemory (s := { s with draws := d }) hr hpc, rfl, rfl, rfl, rfl, rfl, rfl,
      fun _ => rfl⟩
  · exact ⟨_, step_of_reportsWith (s := { s with draws := d }) (kind := .unrecognizedOpcode) hr
      ⟨hpc, hi⟩, rfl, rfl, rfl, rfl, rfl, rfl, fun _ => rfl⟩
  · obtain ⟨u, f, d', hu, hu', hf⟩ := exec_sameButDraws i s d
    obtain rfl := step_unique h ((step_of_current hr hi).trans hu)
    refine ⟨_, (step_of_current (s := { s with draws := d }) hr hi).trans hu', rfl, rfl, rfl, rfl,
      rfl, rfl, fun hne => hf fun r1 r2 => ?_⟩
    exact ⟨fun e => (hne r1 r2).1 (e ▸ hi), fun e => (hne r1 r2).2 (e ▸ hi)⟩

/-! ## Reset and the dump (R41, R110) -/

/-- Settles O2: reset is the launch field by field, on a memory that lists nothing. -/
theorem resetIsALaunchOnFreshMemory : Obligations.ResetIsALaunchOnFreshMemory :=
  ⟨rfl, Memory.readWord_nil, rfl⟩

@[simp] theorem Memory.length_window (m : Memory) (a n : Nat) : (m.window a n).length = n := by
  induction n generalizing a with
  | zero => rfl
  | succ n ih => rw [Memory.window, List.length_cons, ih]

/-- Word `i` of a window is the word at the window's start plus `i`. -/
theorem Memory.getElem?_window (m : Memory) (a : Nat) {i n : Nat} (h : i < n) :
    (m.window a n)[i]? = some (m.readWord (a + i)) := by
  induction n generalizing a i with
  | zero => omega
  | succ n ih =>
    cases i with
    | zero => rfl
    | succ i =>
      rw [Memory.window, List.getElem?_cons_succ, ih (a + 1) (by omega), Nat.add_right_comm,
        Nat.add_assoc]

/-- The packed flags, bit by bit (R30). -/
theorem getLsbD_packFlags (f : Flags) : (packFlags f).getLsbD 0 = f.C ∧
    (packFlags f).getLsbD 1 = f.Z ∧ (packFlags f).getLsbD 2 = f.N ∧ (packFlags f).getLsbD 3 = f.P ∧
    (packFlags f).getLsbD 4 = f.V := by
  obtain ⟨C, Z, N, P, V⟩ := f
  revert C Z N P V
  decide

/-- Settles O27: the packed flags are read bit by bit and the window word by word. -/
theorem dumpShowsTheState : Obligations.DumpShowsTheState := by
  intro s start n
  obtain ⟨hC, hZ, hN, hP, hV⟩ := getLsbD_packFlags s.flags
  exact ⟨rfl, rfl, rfl, rfl, hC, hZ, hN, hP, hV, Memory.length_window s.mem start n,
    fun _ => Memory.getElem?_window s.mem start⟩

end Sys2Proof.Machine
end

section
/-! The laws of the word functions and the flag unit: rotations as inverses, formulas as word operations,
the corners of the flag rules and of `ZERO_BASIS` (`42_register_immediate.md` R131 to R136,
`44_register_register.md` R171 to R174, R179 to R181, R187). -/

namespace Sys2Proof.Machine

/-! ## Rotations (R135, R136) -/

/-- A right rotation is the left rotation by what is missing to a full turn. -/
theorem rotrWord_eq_rotlWord {k k' : Nat} (v : Word) (h : k' = (32 - k % 32) % 32) :
    rotrWord v k = rotlWord v k' := by
  refine BitVec.eq_of_getLsbD_eq fun j hj => ?_
  have hturn : ((j + k) % 32 + k') % 32 = j := by omega
  have hrotl := getLsbD_rotlWord v k' (Nat.mod_lt (j + k) (by decide : 0 < 32))
  rw [hturn] at hrotl
  rw [getLsbD_rotrWord v k hj, hrotl]

theorem rotrWord_rotlWord (v : Word) (k : Nat) : rotrWord (rotlWord v k) k = v := by
  refine BitVec.eq_of_getLsbD_eq fun j hj => ?_
  rw [getLsbD_rotrWord _ k hj, getLsbD_rotlWord v k hj]

theorem rotlWord_rotrWord (v : Word) (k : Nat) : rotlWord (rotrWord v k) k = v := by
  refine BitVec.eq_of_getLsbD_eq fun i hi => ?_
  obtain ⟨j, hj, rfl⟩ : ∃ j, j < 32 ∧ i = (j + k) % 32 :=
    ⟨(i + (32 - k % 32)) % 32, by omega, by omega⟩
  rw [getLsbD_rotlWord _ k hj, getLsbD_rotrWord v k hj]

/-- Settles O35: two rotations that agree as word functions are one instruction's effect, and each
undoes the other bit by bit. -/
theorem rotationsUndoEachOther : Obligations.RotationsUndoEachOther := by
  intro s r k k' v hk
  have hword : rotrWord (s.x.get r) k.toNat = rotlWord (s.x.get r) k'.toNat :=
    rotrWord_eq_rotlWord _ hk
  exact ⟨congrArg (s.putRegister r) hword, rotrWord_rotlWord v k.toNat, rotlWord_rotrWord v k.toNat⟩

/-- Settles O36: each formula, with its corner case, is one bit-vector operation. -/
theorem shiftFormulasAreBitVectorShifts : Obligations.ShiftFormulasAreBitVectorShifts :=
  fun v k => ⟨lslWord_eq_shiftLeft v k, lsrWord_eq_ushiftRight v k, asrWord_eq_sshiftRight v k,
    rotlWord_eq_rotateLeft v k, rotrWord_eq_rotateRight v k⟩

/-! ## Masked results as word operations (R187) -/

theorem maskWord_unmaskedSum (a b : Word) : maskWord (unmaskedSum a b) = a + b := by
  rw [maskWord, unmaskedSum, BitVec.ofInt_add, ← maskWord, ← maskWord, maskWord_toNat,
    maskWord_toNat]

theorem maskWord_unmaskedDifference (a b : Word) : maskWord (unmaskedDifference a b) = a - b := by
  rw [maskWord, unmaskedDifference, Int.sub_eq_add_neg, BitVec.ofInt_add, BitVec.ofInt_neg,
    ← maskWord, ← maskWord, maskWord_toNat, maskWord_toNat, BitVec.sub_eq_add_neg]

theorem maskWord_unmaskedProduct (a b : Word) : maskWord (unmaskedProduct a b) = a * b := by
  rw [maskWord, unmaskedProduct, BitVec.ofInt_mul, ← maskWord, ← maskWord, maskWord_toNat,
    maskWord_toNat]

theorem quotient_eq_udiv (a b : Word) : quotient a b = a / b :=
  BitVec.eq_of_toNat_eq (by rw [toNat_quotient, BitVec.toNat_udiv])

theorem remainder_eq_umod (a b : Word) : remainder a b = a % b :=
  BitVec.eq_of_toNat_eq (by rw [toNat_remainder, BitVec.toNat_umod])

/-- The division law, in words. -/
theorem quotient_mul_add_remainder (a b : Word) : quotient a b * b + remainder a b = a := by
  apply BitVec.eq_of_toNat_eq
  rw [BitVec.toNat_add, BitVec.toNat_mul, toNat_quotient, toNat_remainder, Nat.mod_add_mod,
    Nat.mul_comm, Nat.div_add_mod, Nat.mod_eq_of_lt a.isLt]

theorem toNat_remainder_lt {a b : Word} (hb : b ≠ 0#32) : (remainder a b).toNat < b.toNat := by
  have hpos : b.toNat ≠ 0 := fun h => hb (BitVec.eq_of_toNat_eq h)
  rw [toNat_remainder]
  exact Nat.mod_lt _ (Nat.pos_of_ne_zero hpos)

/-- Settles O52: each formula is a word operation, and the division law is that of numbers. -/
theorem arithmeticFormulasAreWordArithmetic : Obligations.ArithmeticFormulasAreWordArithmetic :=
  fun a b => ⟨maskWord_unmaskedSum a b, maskWord_unmaskedDifference a b,
    maskWord_unmaskedProduct a b, quotient_eq_udiv a b, remainder_eq_umod a b,
    complement_eq_not a, fun hb => ⟨(quotient_mul_add_remainder a b).symm, toNat_remainder_lt hb⟩⟩

/-! ## Corners of the flag rules (R171, R179 to R181) -/

theorem negative_unmaskedSum (a b : Word) : negative (unmaskedSum a b) = false :=
  decide_eq_false (Int.not_lt.2 (by unfold unmaskedSum; positivity))

theorem negative_unmaskedProduct (a b : Word) : negative (unmaskedProduct a b) = false :=
  decide_eq_false (Int.not_lt.2 (by unfold unmaskedProduct; positivity))

theorem word_eq_iff_cast_toNat_eq {a b : Word} : a = b ↔ (a.toNat : Int) = b.toNat := by
  rw [Int.natCast_inj, BitVec.toNat_inj]

/-- An unmasked sum is 0 only of two zeros: a sum that wraps to 0 is not (R174). -/
theorem zero_unmaskedSum (a b : Word) :
    zero .unmasked (unmaskedSum a b) = decide (a = 0#32 ∧ b = 0#32) := by
  refine decide_eq_decide.2 ?_
  rw [word_eq_iff_cast_toNat_eq, word_eq_iff_cast_toNat_eq, unmaskedSum, BitVec.toNat_ofNat]
  omega

theorem zero_unmaskedDifference (basis : ZeroBasis) (a b : Word) :
    zero basis (unmaskedDifference a b) = decide (a = b) := by
  rw [Bool.eq_iff_iff, zero_unmaskedDifference_iff, decide_eq_true_iff, word_eq_iff_cast_toNat_eq]

/-- Settles O50: each corner is a fact about one primitive on one unmasked result. -/
theorem flagCornersOfTheArithmetic : Obligations.FlagCornersOfTheArithmetic := by
  intro basis a b d
  refine ⟨fun hC => ?_, negative_unmaskedSum a b, negative_unmaskedProduct a b, zero_unmaskedSum a b,
    rfl, zero_unmaskedDifference basis a b, ?_, ?_, ?_⟩
  · have hcarry : carryAdd (unmaskedSum a b) = true := hC
    exact Bool.or_eq_true_iff.2 (.inl hcarry)
  · exact (parity_eq _).trans (by rw [maskWord_unmaskedSum])
  · exact (parity_eq _).trans (by rw [maskWord_unmaskedDifference])
  · exact (parity_eq _).trans (by rw [maskWord_unmaskedProduct])

/-! ## Where the two settings of `ZERO_BASIS` part (R174) -/

/-- Two updates that write all flags and have all but `Z` in common differ exactly where `Z` does. -/
theorem flagUpdate_all_ne_iff {c z z' n p v : Bool} :
    FlagUpdate.all ⟨c, z, n, p, v⟩ ≠ FlagUpdate.all ⟨c, z', n, p, v⟩ ↔ z ≠ z' := by
  simp [FlagUpdate.all]

theorem sumarFlags_bases_differ (a b : Word) :
    sumarFlags .unmasked a b ≠ sumarFlags .masked a b ↔ a.toNat + b.toNat = 2 ^ 32 := by
  have ha := a.isLt
  have hb := b.isLt
  rw [sumarFlags, sumarFlags, flagUpdate_all_ne_iff, zero_bases_differ, unmaskedSum]
  omega

theorem multFlags_bases_differ (a b : Word) : multFlags .unmasked a b ≠ multFlags .masked a b ↔
    a.toNat * b.toNat ≠ 0 ∧ 2 ^ 32 ∣ a.toNat * b.toNat := by
  rw [multFlags, multFlags, flagUpdate_all_ne_iff, zero_bases_differ, unmaskedProduct]
  norm_cast
  rw [Nat.dvd_iff_mod_eq_zero]

theorem restarFlags_bases_agree (a b : Word) :
    restarFlags .unmasked a b = restarFlags .masked a b := by
  simp only [restarFlags, zero_unmaskedDifference]

theorem compFlags_bases_agree (a b : Word) : compFlags .unmasked a b = compFlags .masked a b := by
  simp only [compFlags, zero_unmaskedDifference]

/-- Settles O51, by the operation: only the flags of `SUMAR`, `RESTAR`, `MULT` and `COMP` look at the
basis, and a difference of words is no non-zero multiple of `2^32`. -/
theorem zeroBasisMattersOnlyAtMultiples : Obligations.ZeroBasisMattersOnlyAtMultiples := by
  intro op a b d
  cases op with
  | sumar => simpa [flagUnit] using sumarFlags_bases_differ a b
  | mult => simpa [flagUnit] using multFlags_bases_differ a b
  | restar => simpa [flagUnit] using restarFlags_bases_agree a b
  | comp => simpa [flagUnit] using compFlags_bases_agree a b
  | _ => simp [flagUnit]

end Sys2Proof.Machine
end

section
/-! Loading at the default base, and booting a program (`00_scope.md` R7, R8;
`70_reset_and_hazards.md` R251, R252, R255). -/

namespace Sys2Proof.Machine

/-- Settles O54: relocation by the default base 0 changes no word. -/
theorem aLoadAtTheDefaultBaseCopiesItsWords : Obligations.ALoadAtTheDefaultBaseCopiesItsWords := by
  intro p mem m words hwf h
  obtain ⟨-, hplaced, hkept⟩ := load_ok (base := 0) hwf h
  refine ⟨rfl, fun i w hi => ?_, fun a ha => hkept a (.inr ((Nat.zero_add _).trans_le ha))⟩
  rw [← relocate_zero (hplaced i w hi), Nat.zero_add]

/-- A boot that succeeds assembles, loads into a fresh memory and launches (R251). -/
theorem boot_eq_ok_iff {p : Params} {m : JmpMnemonics} {lines : List (List Char)} {base entry : Nat}
    {x : Regs} {f : Flags} {d : Nat} {s : State} : boot p m lines base entry x f d = .ok s ↔
    ∃ words mem, assemble m p.opc lines = .ok words ∧ load p [] words base = .ok mem ∧
      s = State.launch p x f d mem entry := by
  rw [boot]
  cases assemble m p.opc lines with
  | error errors => simp
  | ok words =>
    cases hload : load p [] words base with
    | error e => simp [hload]
    | ok mem => simp [hload, eq_comm]

section Assembled

variable {m : JmpMnemonics} {opc : Opc} {lines : List (List Char)} {words : List Word}

theorem assemble_length (h : assemble m opc lines = .ok words) : words.length = lines.length := by
  simpa using (congrArg List.length (assemble_eq_ok_iff.1 h)).symm

/-- Line `i` of an assembled batch is the source of word `i` (R89). -/
theorem assemble_getElem? (h : assemble m opc lines = .ok words) {i : Nat} {line : List Char}
    (hline : lines[i]? = some line) :
    ∃ w, words[i]? = some w ∧ assembleLine m opc line = .ok w := by
  have hi := congrArg (·[i]?) (assemble_eq_ok_iff.1 h)
  simp only [List.getElem?_map, hline, Option.map_some] at hi
  obtain ⟨w, hw, hok⟩ := Option.map_eq_some_iff.1 hi.symm
  exact ⟨w, hw, hok.symm⟩

end Assembled

/-- Settles O60: the launched memory is that of the load, whose words are those of the lines, in a
memory that was 0 everywhere. -/
theorem bootRunsTheLoadedProgram : Obligations.BootRunsTheLoadedProgram := by
  intro p m lines base entry x f d s h
  obtain ⟨words, mem, hasm, hload, rfl⟩ := boot_eq_ok_iff.1 h
  have hlen := assemble_length hasm
  obtain ⟨hwf, hplaced, hkept⟩ := load_ok Memory.wf_nil hload
  refine ⟨rfl, rfl, rfl, rfl, rfl, rfl, hwf, ?_, fun i line hline => ?_, fun a ha => ?_⟩
  · rintro rfl
    exact (load_eq_ok_iff.1 hload).1 (List.eq_nil_of_length_eq_zero hlen)
  · obtain ⟨w, hw, hline⟩ := assemble_getElem? hasm hline
    exact ⟨w, hline, hplaced i w hw⟩
  · exact (hkept a (hlen ▸ ha)).trans (Memory.readWord_nil a)

end Sys2Proof.Machine
end
